-- ==== Sys2Proof/Word.lean ====
section
/-! DEFINITION. The word types of the machine (spec/00_scope.md R5, R6) and their plainest arithmetic: a byte, the
16-bit word of PC, I and the stack, and the index of a general register. All values are unsigned. -/

namespace Sys2Proof

/-- An 8-bit value: a register V0 to VF, a timer, a memory byte (R5). -/
abbrev Byte := BitVec 8

/-- A 16-bit value: PC, I, a stack entry, an instruction word (R5, R22). -/
abbrev Word := BitVec 16

/-- The index of a general register, 0 to 15; it comes from a 4-bit field, so it cannot be out of range (R10, R144).
The same type names a key of the keypad, 0 to 15 (R21). -/
abbrev Reg := Fin 16

/-- VF, the sixteenth register, which doubles as the carry, borrow and collision flag (R11). -/
abbrev vf : Reg := 15

/-- `zext_16`: a byte widened to 16 bits with zeros; widening is always by zeros (R7). -/
def zext (b : Byte) : Word := b.setWidth 16

end Sys2Proof
end

