-- ==== Sys2Proof/Config.lean ====
section
/-! DEFINITION. What this hardware fixes (spec/00_scope.md R5) and its one free value. The open parameters of
spec/92_eei_decisions.md are taken at their defaults: STACK_DEPTH 16 (D7), STRICT_UNUSED_FIELDS false (D3, log 5),
REFUSE_ODD_PC false (D15, log 17); FONT stands in Machine/Memory.lean (D16, log 3). -/

namespace Sys2Proof

/-- `MEM_SIZE`: 4096 bytes, addresses 0 to 4095 (R5, R30). -/
@[simp] abbrev Config.memSize : Nat := 4096

/-- `ROM_BASE`: where a program is loaded and where PC stands after reset (R5, R24). -/
@[simp] abbrev Config.romBase : Nat := 0x200

/-- `ROM_MAX`: 4096 - 0x200 = 3584 bytes (R5, R173). -/
@[simp] abbrev Config.romMax : Nat := 3584

/-- `STACK_DEPTH`: 16 entries (R5, R15); the default of the open parameter of D7 (log 7). -/
@[simp] abbrev Config.stackDepth : Nat := 16

/-- `RND`: the byte the `n`-th execution of `RND` draws, "a free draw of one byte per execution, no state" (R5,
R106). DESIGN CHOICE (log 1): an uninterpreted constant applied to the counter `State.draws`; it has no body, so
nothing can be proved of its values and a claim about `RND` holds for every draw (D17). -/
opaque Config.randomByte : Nat → Byte

end Sys2Proof
end

