-- ==== Sys2Proof/Syntax.lean ====
section
/-! DEFINITION. The instruction set as syntax: one constructor per row of spec/opcode_table.json, 34 in all
(spec/30_encoding.md R61), with the operands of R8 and R52. Fields the decoder does not look at (R57) are no operands. -/

namespace Sys2Proof

/-- The 34 operations (R61). `x`, `y` are register indices (the fields X, Y), `nn` an 8-bit immediate, `n` a 4-bit
one (a count of sprite rows), `nnn` an address: a 16-bit word of which an encoding holds 12 bits, which
`Instr.wellFormed` checks (log 27). -/
inductive Instr where
  /-- `CLS`, 00E0 (R120). -/
  | cls
  /-- `RET`, 00EE (R80). -/
  | ret
  /-- `JP NNN`, 1NNN (R81). -/
  | jp (nnn : Word)
  /-- `CALL NNN`, 2NNN (R82). -/
  | call (nnn : Word)
  /-- `SE VX,NN`, 3XNN (R83). -/
  | seImm (x : Reg) (nn : Byte)
  /-- `SNE VX,NN`, 4XNN (R84). -/
  | sneImm (x : Reg) (nn : Byte)
  /-- `SE VX,VY`, 5XY0 (R85). -/
  | seReg (x y : Reg)
  /-- `LD VX,NN`, 6XNN (R90). -/
  | ldImm (x : Reg) (nn : Byte)
  /-- `ADD VX,NN`, 7XNN (R91). -/
  | addImm (x : Reg) (nn : Byte)
  /-- `LD VX,VY`, 8XY0 (R92). -/
  | ldReg (x y : Reg)
  /-- `OR VX,VY`, 8XY1 (R93). -/
  | orReg (x y : Reg)
  /-- `AND VX,VY`, 8XY2 (R94). -/
  | andReg (x y : Reg)
  /-- `XOR VX,VY`, 8XY3 (R95). -/
  | xorReg (x y : Reg)
  /-- `ADD VX,VY`, 8XY4 (R97). -/
  | addReg (x y : Reg)
  /-- `SUB VX,VY`, 8XY5 (R98). -/
  | sub (x y : Reg)
  /-- `SHR VX`, 8X-6 (R99). -/
  | shr (x : Reg)
  /-- `SUBN VX,VY`, 8XY7 (R100). -/
  | subn (x y : Reg)
  /-- `SHL VX`, 8X-E (R101). -/
  | shl (x : Reg)
  /-- `SNE VX,VY`, 9XY0 (R86). -/
  | sneReg (x y : Reg)
  /-- `LD I,NNN`, ANNN (R110). -/
  | ldI (nnn : Word)
  /-- `JP V0,NNN`, BNNN (R87). -/
  | jpV0 (nnn : Word)
  /-- `RND VX,NN`, CXNN (R106). -/
  | rnd (x : Reg) (nn : Byte)
  /-- `DRW VX,VY,N`, DXYN (R121). -/
  | drw (x y : Reg) (n : Fin 16)
  /-- `SKP VX`, EX9E (R130). -/
  | skp (x : Reg)
  /-- `SKNP VX`, EXA1 (R131). -/
  | sknp (x : Reg)
  /-- `LD VX,DT`, FX07 (R132). -/
  | ldVxDt (x : Reg)
  /-- `LD VX,K`, FX0A (R133). -/
  | ldVxK (x : Reg)
  /-- `LD DT,VX`, FX15 (R134). -/
  | ldDtVx (x : Reg)
  /-- `LD ST,VX`, FX18 (R135). -/
  | ldStVx (x : Reg)
  /-- `ADD I,VX`, FX1E (R111). -/
  | addI (x : Reg)
  /-- `LD F,VX`, FX29 (R112). -/
  | ldF (x : Reg)
  /-- `LD B,VX`, FX33 (R113). -/
  | ldB (x : Reg)
  /-- `LD [I],VX`, FX55: store V0 to VX (R114). -/
  | storeRegs (x : Reg)
  /-- `LD VX,[I]`, FX65: load V0 to VX (R115). -/
  | loadRegs (x : Reg)
  deriving DecidableEq, Repr

end Sys2Proof
end

