-- ==== Sys2Proof/WellFormed.lean ====
section
/-! DEFINITION. Which instructions have an encoding (spec/30_encoding.md R51, R52). Registers, immediates and the row
count carry their range in their type; the one operand that can be too large is the address NNN, whose field has 12
bits. -/

namespace Sys2Proof

/-- `NNN = insn[11:0]`: 0 to 4095 (R52). -/
def fits12 (nnn : Word) : Bool := nnn.toNat < 4096

/-- Whether an instruction can be written in its format (R51): NNN of `JP`, `CALL`, `LD I` and `JP V0` fits 12 bits. -/
def Instr.wellFormed : Instr → Bool
  | .jp nnn => fits12 nnn
  | .call nnn => fits12 nnn
  | .ldI nnn => fits12 nnn
  | .jpV0 nnn => fits12 nnn
  | .cls => true
  | .ret => true
  | .seImm _ _ => true
  | .sneImm _ _ => true
  | .seReg _ _ => true
  | .ldImm _ _ => true
  | .addImm _ _ => true
  | .ldReg _ _ => true
  | .orReg _ _ => true
  | .andReg _ _ => true
  | .xorReg _ _ => true
  | .addReg _ _ => true
  | .sub _ _ => true
  | .shr _ => true
  | .subn _ _ => true
  | .shl _ => true
  | .sneReg _ _ => true
  | .rnd _ _ => true
  | .drw _ _ _ => true
  | .skp _ => true
  | .sknp _ => true
  | .ldVxDt _ => true
  | .ldVxK _ => true
  | .ldDtVx _ => true
  | .ldStVx _ => true
  | .addI _ => true
  | .ldF _ => true
  | .ldB _ => true
  | .storeRegs _ => true
  | .loadRegs _ => true

/-- The instruction can be encoded. -/
abbrev Instr.WellFormed (i : Instr) : Prop := i.wellFormed = true

end Sys2Proof
end

