-- ==== Sys2Proof/Decode.lean ====
section
/-! DEFINITION. The decoder (spec/30_encoding.md R50 to R60), total on any word and on any bytes, rejecting by name;
and after it the encoder, written from the same tables. The numerals other than 0xE0, 0xEE, 0x18 and 0x1E are the
conventional CHIP-8 ones (D2, log 4). -/

namespace Sys2Proof

/-- Why the decoder finds no operation: the two-level family whose selector names none (R58), or too few bytes. -/
inductive Reject where
  /-- Family 0x0, low byte neither 0xE0 nor 0xEE. -/
  | family0
  /-- Family 0x8, low nibble 8 to D or F. -/
  | family8
  /-- Family 0xE, low byte neither 0x9E nor 0xA1. -/
  | familyE
  /-- Family 0xF, low byte not one of the nine of R56. -/
  | familyF
  /-- No family: answered by no word (every 4-bit family is one of the sixteen). -/
  | noFamily
  /-- Fewer than the two bytes of an instruction (R50): raised by `decodeBytes` alone. -/
  | tooShort
  deriving DecidableEq, Repr

/-- The decoder's answer: one of the 34 operations with its fields, or `illegal` (R60). -/
inductive Decoded where
  | instr (i : Instr)
  | illegal (why : Reject)
  deriving DecidableEq, Repr

/-- `insn[15:12]`, the opcode family (R52). -/
def family (w : Word) : BitVec 4 := w.extractLsb' 12 4

/-- `X = insn[11:8]` (R52). -/
def fieldX (w : Word) : Reg := (w.extractLsb' 8 4).toFin

/-- `Y = insn[7:4]` (R52). -/
def fieldY (w : Word) : Reg := (w.extractLsb' 4 4).toFin

/-- `insn[3:0]`, the low nibble, the selector of family 8 (R53). -/
def lowNibble (w : Word) : BitVec 4 := w.extractLsb' 0 4

/-- `N = insn[3:0]` (R52). -/
def fieldN (w : Word) : Fin 16 := (lowNibble w).toFin

/-- `NN = insn[7:0]`, also the selector of families 0, E and F (R52, R53). -/
def fieldNN (w : Word) : Byte := w.extractLsb' 0 8

/-- `NNN = insn[11:0]`, used as a byte address as it stands (R52). -/
def fieldNNN (w : Word) : Word := (w.extractLsb' 0 12).setWidth 16

/-- Family 0 by the low byte (R55); bits 11:8 are not examined (R57, log 5). -/
def decode0 (w : Word) : Decoded :=
  match fieldNN w with
  | 0xE0 => .instr .cls
  | 0xEE => .instr .ret
  | _ => .illegal .family0

/-- Family 8 by the low nibble (R55); the shifts do not look at Y (R57). -/
def decode8 (w : Word) : Decoded :=
  match lowNibble w with
  | 0x0 => .instr (.ldReg (fieldX w) (fieldY w))
  | 0x1 => .instr (.orReg (fieldX w) (fieldY w))
  | 0x2 => .instr (.andReg (fieldX w) (fieldY w))
  | 0x3 => .instr (.xorReg (fieldX w) (fieldY w))
  | 0x4 => .instr (.addReg (fieldX w) (fieldY w))
  | 0x5 => .instr (.sub (fieldX w) (fieldY w))
  | 0x6 => .instr (.shr (fieldX w))
  | 0x7 => .instr (.subn (fieldX w) (fieldY w))
  | 0xE => .instr (.shl (fieldX w))
  | _ => .illegal .family8

/-- Family E by the whole low byte (R56; D4, log 6). -/
def decodeE (w : Word) : Decoded :=
  match fieldNN w with
  | 0x9E => .instr (.skp (fieldX w))
  | 0xA1 => .instr (.sknp (fieldX w))
  | _ => .illegal .familyE

/-- Family F by the whole low byte (R56). -/
def decodeF (w : Word) : Decoded :=
  match fieldNN w with
  | 0x07 => .instr (.ldVxDt (fieldX w))
  | 0x0A => .instr (.ldVxK (fieldX w))
  | 0x15 => .instr (.ldDtVx (fieldX w))
  | 0x18 => .instr (.ldStVx (fieldX w))
  | 0x1E => .instr (.addI (fieldX w))
  | 0x29 => .instr (.ldF (fieldX w))
  | 0x33 => .instr (.ldB (fieldX w))
  | 0x55 => .instr (.storeRegs (fieldX w))
  | 0x65 => .instr (.loadRegs (fieldX w))
  | _ => .illegal .familyF

/-- `decode(insn)`, a function of the word alone (R60): first the family, then, in the two-level families, the
selector (R53). -/
def decode (w : Word) : Decoded :=
  match family w with
  | 0x0 => decode0 w
  | 0x1 => .instr (.jp (fieldNNN w))
  | 0x2 => .instr (.call (fieldNNN w))
  | 0x3 => .instr (.seImm (fieldX w) (fieldNN w))
  | 0x4 => .instr (.sneImm (fieldX w) (fieldNN w))
  | 0x5 => .instr (.seReg (fieldX w) (fieldY w))
  | 0x6 => .instr (.ldImm (fieldX w) (fieldNN w))
  | 0x7 => .instr (.addImm (fieldX w) (fieldNN w))
  | 0x8 => decode8 w
  | 0x9 => .instr (.sneReg (fieldX w) (fieldY w))
  | 0xA => .instr (.ldI (fieldNNN w))
  | 0xB => .instr (.jpV0 (fieldNNN w))
  | 0xC => .instr (.rnd (fieldX w) (fieldNN w))
  | 0xD => .instr (.drw (fieldX w) (fieldY w) (fieldN w))
  | 0xE => decodeE w
  | 0xF => decodeF w
  | _ => .illegal .noFamily

/-- The word of two consecutive bytes, big-endian: the byte at the lower address is `insn[15:8]` (R35). -/
def wordOfBytes (hi lo : Byte) : Word := hi ++ lo

/-- `insn[15:8]`, the byte at the lower address (R35). -/
def highByte (w : Word) : Byte := w.extractLsb' 8 8

/-- `insn[7:0]`, the byte at the higher address (R35). -/
def lowByte (w : Word) : Byte := w.extractLsb' 0 8

/-- The decoder on bytes as memory holds them: the instruction of the first two (R50, R35) and the bytes after it. -/
def decodeBytes : List Byte → Decoded × List Byte
  | hi :: lo :: rest => (decode (wordOfBytes hi lo), rest)
  | [] => (.illegal .tooShort, [])
  | [b] => (.illegal .tooShort, [b])

/-- A word in format `XYn` or `XYN`: four nibbles (R51). -/
def wordOfNibbles (f a b c : BitVec 4) : Word := f ++ a ++ b ++ c

/-- A word in format `XNN`, `Xnn` or `nn`: the family, X, and the low byte (R51). -/
def wordXNN (f : BitVec 4) (x : BitVec 4) (nn : Byte) : Word := f ++ x ++ nn

/-- A word in format `NNN` (R51): the family and the 12 low bits of the address. -/
def wordNNN (f : BitVec 4) (nnn : Word) : Word := f ++ nnn.extractLsb' 0 12

/-- The 4-bit field of a register index or of a row count (R52). -/
def nibbleOf (x : Fin 16) : BitVec 4 := BitVec.ofFin x

/-- The word of an instruction (R54 to R56), with 0 in every ignored field: the canonical spelling (R57, log 28). -/
def encode : Instr → Word
  | .cls => wordXNN 0x0 0 0xE0
  | .ret => wordXNN 0x0 0 0xEE
  | .jp nnn => wordNNN 0x1 nnn
  | .call nnn => wordNNN 0x2 nnn
  | .seImm x nn => wordXNN 0x3 (nibbleOf x) nn
  | .sneImm x nn => wordXNN 0x4 (nibbleOf x) nn
  | .seReg x y => wordOfNibbles 0x5 (nibbleOf x) (nibbleOf y) 0
  | .ldImm x nn => wordXNN 0x6 (nibbleOf x) nn
  | .addImm x nn => wordXNN 0x7 (nibbleOf x) nn
  | .ldReg x y => wordOfNibbles 0x8 (nibbleOf x) (nibbleOf y) 0x0
  | .orReg x y => wordOfNibbles 0x8 (nibbleOf x) (nibbleOf y) 0x1
  | .andReg x y => wordOfNibbles 0x8 (nibbleOf x) (nibbleOf y) 0x2
  | .xorReg x y => wordOfNibbles 0x8 (nibbleOf x) (nibbleOf y) 0x3
  | .addReg x y => wordOfNibbles 0x8 (nibbleOf x) (nibbleOf y) 0x4
  | .sub x y => wordOfNibbles 0x8 (nibbleOf x) (nibbleOf y) 0x5
  | .shr x => wordOfNibbles 0x8 (nibbleOf x) 0 0x6
  | .subn x y => wordOfNibbles 0x8 (nibbleOf x) (nibbleOf y) 0x7
  | .shl x => wordOfNibbles 0x8 (nibbleOf x) 0 0xE
  | .sneReg x y => wordOfNibbles 0x9 (nibbleOf x) (nibbleOf y) 0
  | .ldI nnn => wordNNN 0xA nnn
  | .jpV0 nnn => wordNNN 0xB nnn
  | .rnd x nn => wordXNN 0xC (nibbleOf x) nn
  | .drw x y n => wordOfNibbles 0xD (nibbleOf x) (nibbleOf y) (nibbleOf n)
  | .skp x => wordXNN 0xE (nibbleOf x) 0x9E
  | .sknp x => wordXNN 0xE (nibbleOf x) 0xA1
  | .ldVxDt x => wordXNN 0xF (nibbleOf x) 0x07
  | .ldVxK x => wordXNN 0xF (nibbleOf x) 0x0A
  | .ldDtVx x => wordXNN 0xF (nibbleOf x) 0x15
  | .ldStVx x => wordXNN 0xF (nibbleOf x) 0x18
  | .addI x => wordXNN 0xF (nibbleOf x) 0x1E
  | .ldF x => wordXNN 0xF (nibbleOf x) 0x29
  | .ldB x => wordXNN 0xF (nibbleOf x) 0x33
  | .storeRegs x => wordXNN 0xF (nibbleOf x) 0x55
  | .loadRegs x => wordXNN 0xF (nibbleOf x) 0x65

/-- The bits of an instruction's words that the decoder does not examine (the table of R57; log 5). -/
def ignoredBits : Instr → Word
  | .cls => 0x0F00
  | .ret => 0x0F00
  | .seReg _ _ => 0x000F
  | .sneReg _ _ => 0x000F
  | .shr _ => 0x00F0
  | .shl _ => 0x00F0
  | .jp _ | .call _ | .seImm _ _ | .sneImm _ _ | .ldImm _ _ | .addImm _ _ | .ldReg _ _ | .orReg _ _ | .andReg _ _
  | .xorReg _ _ | .addReg _ _ | .sub _ _ | .subn _ _ | .ldI _ | .jpV0 _ | .rnd _ _ | .drw _ _ _ | .skp _ | .sknp _
  | .ldVxDt _ | .ldVxK _ | .ldDtVx _ | .ldStVx _ | .addI _ | .ldF _ | .ldB _ | .storeRegs _ | .loadRegs _ => 0

/-- The bytes of a word as memory holds them, lowest address first (R35). -/
def bytesOfWord (w : Word) : List Byte := [highByte w, lowByte w]

/-- The instruction the decoder reads from a word numbered as spec/opcode_table.json numbers it: bit 0 is the least
significant bit of the one 16-bit word; bits at `nbits` and above are 0. -/
def decodeTableWord (nbits w : Nat) : Option Instr :=
  match (decodeBytes (bytesOfWord (BitVec.ofNat 16 (w % 2 ^ nbits)))).1 with
  | .instr i => some i
  | .illegal _ => none

end Sys2Proof
end

