-- ==== Sys2Proof/Machine/State.lean ====
section
/-! DEFINITION. The Machine State (spec/10_state.md R10 to R26) as plain data, its reset value (R24), and the reasons
a step can stop (spec/60_exceptions.md R140). -/

namespace Sys2Proof.Machine

/-- The 4096-byte memory: the (address, byte) pairs that differ from the reset contents, addresses strictly rising
(the form `Memory.wf` of Machine/Memory.lean; log 25). -/
abbrev Memory := List Host.Cell

/-- The display buffer: 32 rows of 64 one-bit pixels, `disp[y][x]`; `true` is a pixel of value 1 (R20, log 29). -/
abbrev Display := Vector (Vector Bool 64) 32

/-- Everything the spec gives the machine (R23: "There is no other state"), and one field of the model's own,
`draws`. The instruction word is transient and no state (R22); there is no fault latch (R147). -/
structure State where
  /-- V0 to VF, 8 bits each; VF is index 15 (R10, R11). -/
  regs : Vector Byte 16
  /-- I, the 16-bit address register (R12). -/
  iReg : Word
  /-- PC, 16 bits: the address of the instruction about to be executed (R13). -/
  pc : Word
  /-- The live entries of the call stack, the most recent first; SP is its length, 0 to 16 (R15, R16, log 8). -/
  stack : List Word
  /-- DT, the delay timer (R19). -/
  dt : Byte
  /-- ST, the sound timer (R19). -/
  st : Byte
  /-- The memory (R30). -/
  mem : Memory
  /-- The display buffer (R20). -/
  disp : Display
  /-- The 16 key flags, `true` meaning pressed (R21). -/
  keys : Vector Bool 16
  /-- THE MODEL'S OWN, not the spec's: how many bytes `RND` has drawn, the argument of `Config.randomByte`. DESIGN
  CHOICE (log 1, 2). -/
  draws : Nat
  deriving DecidableEq, Repr

/-- The faults that end a `step()` or a `loadROM()` and are handed to the host (R140). In the model a fault carries
no state: the state is the one before the step (R146, log 9). -/
inductive Fault where
  /-- Code 1: the word `insn` has no operation (R141). Raised by the step's decode phase. Safe: the spec's own. -/
  | decodeError (insn : Word)
  /-- Code 2: `RET` with an empty stack (R142). Safe: the spec's own. -/
  | stackUnderflow
  /-- Code 3: the first address above 4095 that the access order reaches (R143). Raised by the fetch, `DRW`, `LD B`,
  `LD [I]` and `LD VX,[I]`. Safe: the spec's own. -/
  | addressRange (address : Nat)
  /-- Code 4: a register index above 15. Raised by nothing: a 4-bit field cannot exceed 15 (R144, log 10). Safe. -/
  | registerRange
  /-- Code 5: the length of a ROM of more than 3584 bytes (R173). Raised by `loadROM` only. Safe: the spec's own. -/
  | romTooLarge (length : Nat)
  /-- Code 6: `CALL` with 16 entries on the stack (R17, D7, log 7). Safe: the hardware may go on. -/
  | stackOverflow
  /-- Code 7: the value of VX in `SKP` or `SKNP` when it is above 15 (R130, D11, log 14). Safe: the hardware may go
  on. -/
  | keyRange (value : Byte)
  /-- Code 8: `ADD I,VX` with a sum above 0xFFFF (R111, D14, log 16). Safe: the hardware may go on. -/
  | indexOverflow
  deriving DecidableEq, Repr

/-- The codes of the table of R140 (D6). -/
def Fault.code : Fault → Nat
  | .decodeError _ => 1
  | .stackUnderflow => 2
  | .addressRange _ => 3
  | .registerRange => 4
  | .romTooLarge _ => 5
  | .stackOverflow => 6
  | .keyRange _ => 7
  | .indexOverflow => 8

/-- Reasons for which the model gives no meaning. -/
inductive Refusal where
  /-- An instruction still rejected by name in `exec`. Raised by no arm: all 34 have their meaning. Safe. -/
  | notModelled (mnemonic : String)
  /-- `restoreState` was given a record that no `snapshotState` could have produced, which the spec leaves without a
  meaning (R160, U11, log 23). Raised by `hostCall` only, never by a step. Safe. -/
  | snapshotOutOfDomain
  deriving DecidableEq, Repr

/-- The state after `reset()`, the table of R24: memory at its reset contents (nothing listed), PC at 0x200, all else
0, empty or false. `draws` is the model's own (log 2). -/
def State.reset : State where
  regs := Vector.replicate 16 0
  iReg := 0
  pc := 0x200
  stack := []
  dt := 0
  st := 0
  mem := []
  disp := Vector.replicate 32 (Vector.replicate 64 false)
  keys := Vector.replicate 16 false
  draws := 0

/-- How a handler, and a step, ends. -/
abbrev Result := Host.Outcome State Fault Refusal

end Sys2Proof.Machine
end

