-- ==== Sys2Proof/Machine/Memory.lean ====
section
/-! DEFINITION. The memory as a list of the bytes that differ from its reset contents, in one canonical form
(spec/20_memory.md R30, R33, R34): what an unlisted address reads as, reading, writing. -/

namespace Sys2Proof.Machine

/-- `FONT[0..79]`, 16 glyphs of 5 row bytes (the table of R34). PRESUMED (log 3): the spec's default of an open
parameter, [from general knowledge, not in source]. -/
def fontBytes : List Byte :=
  [0xF0, 0x90, 0x90, 0x90, 0xF0] ++ [0x20, 0x60, 0x20, 0x20, 0x70] ++ [0xF0, 0x10, 0xF0, 0x80, 0xF0]
  ++ [0xF0, 0x10, 0xF0, 0x10, 0xF0] ++ [0x90, 0x90, 0xF0, 0x10, 0x10] ++ [0xF0, 0x80, 0xF0, 0x10, 0xF0]
  ++ [0xF0, 0x80, 0xF0, 0x90, 0xF0] ++ [0xF0, 0x10, 0x20, 0x40, 0x40] ++ [0xF0, 0x90, 0xF0, 0x90, 0xF0]
  ++ [0xF0, 0x90, 0xF0, 0x10, 0xF0] ++ [0xF0, 0x90, 0xF0, 0x90, 0x90] ++ [0xE0, 0x90, 0xE0, 0x90, 0xE0]
  ++ [0xF0, 0x80, 0x80, 0x80, 0xF0] ++ [0xE0, 0x90, 0x90, 0x90, 0xE0] ++ [0xF0, 0x80, 0xF0, 0x80, 0xF0]
  ++ [0xF0, 0x80, 0xF0, 0x80, 0x80]

/-- What an unlisted address reads as: the reset contents, the font at 0x000 to 0x04F and zeros after it (R24, R33;
log 25). -/
def initialByte (a : Nat) : Byte := fontBytes.getD a 0

/-- The byte at an address. -/
def Memory.get : Memory → Nat → Byte
  | [], a => initialByte a
  | c :: m, a => if c.1 = a then c.2 else Memory.get m a

/-- A memory without an entry for an address: there it reads as after reset. -/
def Memory.erase (m : Memory) (a : Nat) : Memory := m.filter (fun c => decide (c.1 ≠ a))

/-- An entry put in its place by address. -/
def Memory.insert : Memory → Nat → Byte → Memory
  | [], a, v => [(a, v)]
  | c :: m, a, v => if a < c.1 then (a, v) :: c :: m else c :: Memory.insert m a v

/-- The byte at an address becomes `v`; a value equal to the reset contents is not listed. -/
def Memory.set (m : Memory) (a : Nat) (v : Byte) : Memory :=
  if v = initialByte a then m.erase a else (m.erase a).insert a v

/-- The bytes `vs` written at `a`, `a + 1`, … in ascending order (R36). -/
def Memory.setBytes : Memory → Nat → List Byte → Memory
  | m, _, [] => m
  | m, a, v :: vs => (m.set a v).setBytes (a + 1) vs

/-- The canonical form: addresses strictly rising and below 4096, no entry equal to the reset contents. -/
abbrev Memory.wf (m : Memory) : Prop :=
  m.Pairwise (fun c d => c.1 < d.1) ∧ ∀ c ∈ m, c.1 < Config.memSize ∧ c.2 ≠ initialByte c.1

end Sys2Proof.Machine
end

