-- ==== Sys2Proof/Machine/Ops.lean ====
section
/-! DEFINITION. The named operations over the state, the primitives of spec/00_scope.md R7: registers, memory, stack,
PC, timers; raising a fault; and the phases of the step around the handler, fetch, decode and timer tick
(spec/40_step_cycle.md R70). There is no exception entry and no return from one on this machine (R147): `raise` is
all a fault does. -/

namespace Sys2Proof.Machine

/-- `raise <Fault>(info)`: the step ends with that fault and nothing changes (R7, R146; log 9). The one operation by
which a handler stops. -/
def raise (f : Fault) : Result := .fault f

/-- A handler that goes on only if an access succeeds, and else ends with its fault. -/
def attempt {α : Type} (e : Except Fault α) (k : α → Result) : Result :=
  match e with
  | .ok a => k a
  | .error f => raise f

/-- `V[i]` (R7, R10). -/
def State.reg (s : State) (r : Reg) : Byte := s.regs.get r

/-- `V[i] <- v` (R7, R10): no register is hard-wired. -/
def State.setReg (s : State) (r : Reg) (v : Byte) : State := { s with regs := s.regs.set r v }

/-- Registers `V[k]`, `V[k+1]`, … take the bytes in ascending order (R115). -/
def State.setRegs : State → Nat → List Byte → State
  | s, _, [] => s
  | s, k, v :: vs => (s.setReg (Fin.ofNat 16 k) v).setRegs (k + 1) vs

/-- `I <- v` (R7, R12). -/
def State.setI (s : State) (v : Word) : State := { s with iReg := v }

/-- `pc <- target` (R7, R13). -/
def State.jump (s : State) (target : Word) : State := { s with pc := target }

/-- `pc <- pc + k`, where `pc` is the address of the instruction (R13, R72). -/
def State.advance (s : State) (k : Word) : State := s.jump (s.pc + k)

/-- The end of most handlers: `pc <- pc + 2` (R14). -/
def State.done (s : State) : Result := .next (s.advance 2)

/-- A skip: `pc + 4` if the condition holds, else `pc + 2` (R14, R88). -/
def State.skipIf (s : State) (c : Bool) : Result := .next (s.advance (if c then 4 else 2))

/-- `MemRead(addr, 1)` (R31): never wraps. -/
def State.readByte (s : State) (a : Nat) : Except Fault Byte :=
  if a < Config.memSize then .ok (s.mem.get a) else .error (.addressRange a)

/-- `n` bytes at `a`, `a + 1`, …, or the fault of the first address that fails (R36, R140). -/
def State.readBytes (s : State) : Nat → Nat → Except Fault (List Byte)
  | _, 0 => .ok []
  | a, n + 1 =>
    match s.readByte a with
    | .error f => .error f
    | .ok b =>
      match s.readBytes (a + 1) n with
      | .error f => .error f
      | .ok bs => .ok (b :: bs)

/-- `MemWrite(addr, 1, v)` (R32): every address 0 to 4095 is writable. -/
def State.writeByte (s : State) (a : Nat) (v : Byte) : Except Fault State :=
  if a < Config.memSize then .ok { s with mem := s.mem.set a v } else .error (.addressRange a)

/-- The bytes written at `a`, `a + 1`, … in ascending order, or the fault of the first address that fails, and then
no byte is written (R113, R114, R146). -/
def State.writeBytes : State → Nat → List Byte → Except Fault State
  | s, _, [] => .ok s
  | s, a, v :: vs =>
    match s.writeByte a v with
    | .error f => .error f
    | .ok s' => s'.writeBytes (a + 1) vs

/-- SP, the number of live stack entries (R16). -/
def State.sp (s : State) : Nat := s.stack.length

/-- `stack[k]`, slot 0 the oldest; slots at or above SP are no state (R16). -/
def State.slot (s : State) (k : Nat) : Option Word := s.stack.reverse[k]?

/-- `push(v)` (R17; D7, log 7). -/
def State.push (s : State) (v : Word) : Except Fault State :=
  if s.sp < Config.stackDepth then .ok { s with stack := v :: s.stack } else .error .stackOverflow

/-- `pop()` (R18): the most recent entry and the state without it. -/
def State.pop (s : State) : Except Fault (Word × State) :=
  match s.stack with
  | [] => .error .stackUnderflow
  | t :: ts => .ok (t, { s with stack := ts })

/-- `key[k]` (R7, R21). -/
def State.key (s : State) (k : Reg) : Bool := s.keys.get k

/-- The key scan, ascending 0 to 15, the last match kept (R5 KEY_SCAN, R133; D12, log 15). -/
def scanKeys (keys : Vector Bool 16) : Option Reg :=
  (List.finRange 16).foldl (fun found k => if keys.get k then some k else found) none

/-- `draw_byte()` (R7, R106): the free byte of this execution. -/
def State.drawByte (s : State) : Byte := Config.randomByte s.draws

/-- One more byte drawn (log 1). -/
def State.countDraw (s : State) : State := { s with draws := s.draws + 1 }

/-- A timer after a tick: one less while it is greater than 0 (R19, R74). -/
def tickTimer (t : Byte) : Byte := if t = 0 then 0 else t - 1

/-- The timer tick: both timers, independently (R74). -/
def State.tick (s : State) : State := { s with dt := tickTimer s.dt, st := tickTimer s.st }

/-- `MemRead(pc, 2)` with PC as it stands: big-endian, no alignment check (R35, R37, R71). -/
def State.fetch (s : State) : Except Fault Word :=
  match s.readByte s.pc.toNat with
  | .error f => .error f
  | .ok hi =>
    match s.readByte (s.pc.toNat + 1) with
    | .error f => .error f
    | .ok lo => .ok (wordOfBytes hi lo)

/-- The phases before the handler: fetch, then decode, whose `illegal` is `DecodeError(insn)` (R70, R73). -/
def State.fetchDecode (s : State) : Except Fault Instr :=
  match s.fetch with
  | .error f => .error f
  | .ok w =>
    match decode w with
    | .instr i => .ok i
    | .illegal _ => .error (.decodeError w)

/-- The phase after the handler: the timer tick, which a fault skips (R70, R75). -/
def retire : Result → Result
  | .next s => .next s.tick
  | .fault f => .fault f
  | .refused r => .refused r

/-- A state whose next fetch reads the word `w`: its two bytes at PC and PC + 1, big-endian. A PC from which nothing
can be fetched is first moved to 0x200 (log 24). -/
def State.placeAtPc (s : State) (w : Word) : State :=
  let s' := if s.pc.toNat + 1 < Config.memSize then s else { s with pc := BitVec.ofNat 16 Config.romBase }
  { s' with mem := s'.mem.setBytes s'.pc.toNat (bytesOfWord w) }

end Sys2Proof.Machine
end

