-- ==== Sys2Proof/Machine/Flags.lean ====
section
/-! DEFINITION. The values the six flag-writing instructions leave in VF (the table of spec/10_state.md R11). There is
no flags register: VF is `V[0xF]`. -/

namespace Sys2Proof.Machine

/-- A flag as the byte VF holds: 1 or 0 (R11). -/
def flagByte (b : Bool) : Byte := if b then 1 else 0

/-- `ADD VX,VY`: carry out of bit 7, the 9-bit sum is above 255 (R97). -/
def carry (a b : Byte) : Byte := flagByte (255 < a.toNat + b.toNat)

/-- `SUB`, `SUBN`: 1 if `a - b` borrows nothing, that is `a ≥ b` (R98, R100; D8, log 12). -/
def noBorrow (a b : Byte) : Byte := flagByte (b.toNat ≤ a.toNat)

/-- `SHR`: bit 0, the bit shifted out (R99). -/
def lowBit (a : Byte) : Byte := a &&& 1

/-- `SHL`: bit 7, the bit shifted out (R101). -/
def highBit (a : Byte) : Byte := (a >>> 7) &&& 1

/-- `V[0xF] <- v` (R11). -/
def State.setFlag (s : State) (v : Byte) : State := s.setReg vf v

end Sys2Proof.Machine
end

