-- ==== Sys2Proof/Machine/Operands.lean ====
section
/-! DEFINITION. The operand forms: register operands, the address `I + offset`, jump targets, the key numbered VX, the
decimal digits of VX and the block V0 to VX (spec/30_encoding.md R52, spec/43_index_memory.md R116). -/

namespace Sys2Proof.Machine

/-- The effective address: I plus a small offset, an integer that is neither masked nor wrapped (R116). -/
def State.effective (s : State) (offset : Nat) : Nat := s.iReg.toNat + offset

/-- `V[0], …, V[X]`, ascending: the implicit operands of the block transfers (R114). -/
def State.regsUpTo (s : State) (x : Reg) : List Byte :=
  (List.range (x.val + 1)).map (fun k => s.reg (Fin.ofNat 16 k))

/-- The target of `JP V0,NNN`: `NNN + V[0]`, not masked to 12 bits (R87). -/
def State.offsetTarget (s : State) (nnn : Word) : Word := nnn + zext (s.reg 0)

/-- The address of a glyph: `V[X] * 5`, VX not masked to its low nibble (R112; D27, log 18). -/
def glyphAddress (v : Byte) : Word := BitVec.ofNat 16 (v.toNat * 5)

/-- The hundreds, tens and units of a byte, each a whole byte (R113). -/
def decimalDigits (v : Byte) : List Byte :=
  [BitVec.ofNat 8 (v.toNat / 100), BitVec.ofNat 8 (v.toNat / 10 % 10), BitVec.ofNat 8 (v.toNat % 10)]

/-- The sum of `ADD I,VX`, or its fault when it needs more than 16 bits (R111; D14, log 16). -/
def indexSum (i : Word) (v : Byte) : Except Fault Word :=
  if i.toNat + v.toNat ≤ 0xFFFF then .ok (i + zext v) else .error .indexOverflow

/-- The flag of the key numbered by a register's value, or the fault of a value above 15 (R130; D11, log 14). -/
def State.keyNumbered (s : State) (v : Byte) : Except Fault Bool :=
  if v.toNat < 16 then .ok (s.key (Fin.ofNat 16 v.toNat)) else .error (.keyRange v)

end Sys2Proof.Machine
end

