-- ==== Sys2Proof/Machine/Alu.lean ====
section
/-! DEFINITION. Register loads, ALU operations and RND (spec/42_load_alu_random.md R90 to R106). Where VF is an operand
of a flag-writing operation, the two register writes happen in the order of the pseudocode and each operand is read at
the statement that uses it (R96; D9, log 11). -/

namespace Sys2Proof.Machine

/-- `LD VX,NN` (R90). -/
def execLdImm (x : Reg) (nn : Byte) (s : State) : Result := (s.setReg x nn).done

/-- `ADD VX,NN` (R91): wraps modulo 256, VF is not written. -/
def execAddImm (x : Reg) (nn : Byte) (s : State) : Result := (s.setReg x (s.reg x + nn)).done

/-- `LD VX,VY` (R92). -/
def execLdReg (x y : Reg) (s : State) : Result := (s.setReg x (s.reg y)).done

/-- `OR VX,VY` (R93): VF is not written. -/
def execOrReg (x y : Reg) (s : State) : Result := (s.setReg x (s.reg x ||| s.reg y)).done

/-- `AND VX,VY` (R94): VF is not written. -/
def execAndReg (x y : Reg) (s : State) : Result := (s.setReg x (s.reg x &&& s.reg y)).done

/-- `XOR VX,VY` (R95): VF is not written. -/
def execXorReg (x y : Reg) (s : State) : Result := (s.setReg x (s.reg x ^^^ s.reg y)).done

/-- `ADD VX,VY` (R97): the sum first, then the carry. -/
def execAddReg (x y : Reg) (s : State) : Result :=
  ((s.setReg x (s.reg x + s.reg y)).setFlag (carry (s.reg x) (s.reg y))).done

/-- The flag first, then a result computed from the registers as they then stand (R96). -/
def State.flagThen (s : State) (flag : Byte) (x : Reg) (result : State → Byte) : Result :=
  let s' := s.setFlag flag
  (s'.setReg x (result s')).done

/-- `SUB VX,VY` (R98). -/
def execSub (x y : Reg) (s : State) : Result :=
  s.flagThen (noBorrow (s.reg x) (s.reg y)) x (fun s' => s'.reg x - s'.reg y)

/-- `SHR VX` (R99): a logical shift by one; VY is neither read nor written. -/
def execShr (x : Reg) (s : State) : Result := s.flagThen (lowBit (s.reg x)) x (fun s' => s'.reg x >>> 1)

/-- `SUBN VX,VY` (R100). -/
def execSubn (x y : Reg) (s : State) : Result :=
  s.flagThen (noBorrow (s.reg y) (s.reg x)) x (fun s' => s'.reg y - s'.reg x)

/-- `SHL VX` (R101): a shift by one; VY is neither read nor written. -/
def execShl (x : Reg) (s : State) : Result := s.flagThen (highBit (s.reg x)) x (fun s' => s'.reg x <<< 1)

/-- `RND` with the byte `r` drawn: `V[X] <- r & NN` (R106). -/
def rndWith (r : Byte) (x : Reg) (nn : Byte) (s : State) : State := (s.setReg x (r &&& nn)).advance 2

/-- `RND VX,NN` (R106): the draw is free (D17, log 1). -/
def execRnd (x : Reg) (nn : Byte) (s : State) : Result := .next (rndWith s.drawByte x nn s).countDraw

end Sys2Proof.Machine
end

