-- ==== Sys2Proof/Machine/Control.lean ====
section
/-! DEFINITION. Control transfer: RET, JP, CALL, SE, SNE, JP V0 (spec/41_control_transfer.md R80 to R88). -/

namespace Sys2Proof.Machine

/-- `RET` (R80): `t <- pop(); pc <- t + 2`, the sum modulo 65536 (D29, log 19). -/
def execRet (s : State) : Result := attempt s.pop (fun p => .next (p.2.jump (p.1 + 2)))

/-- `JP NNN` (R81). -/
def execJp (nnn : Word) (s : State) : Result := .next (s.jump nnn)

/-- `CALL NNN` (R82): pushes the address of the `CALL` itself. -/
def execCall (nnn : Word) (s : State) : Result := attempt (s.push s.pc) (fun s' => .next (s'.jump nnn))

/-- `SE VX,NN` (R83). -/
def execSeImm (x : Reg) (nn : Byte) (s : State) : Result := s.skipIf (s.reg x == nn)

/-- `SNE VX,NN` (R84). -/
def execSneImm (x : Reg) (nn : Byte) (s : State) : Result := s.skipIf (s.reg x != nn)

/-- `SE VX,VY` (R85). -/
def execSeReg (x y : Reg) (s : State) : Result := s.skipIf (s.reg x == s.reg y)

/-- `SNE VX,VY` (R86). -/
def execSneReg (x y : Reg) (s : State) : Result := s.skipIf (s.reg x != s.reg y)

/-- `JP V0,NNN` (R87). -/
def execJpV0 (nnn : Word) (s : State) : Result := .next (s.jump (s.offsetTarget nnn))

end Sys2Proof.Machine
end

