-- ==== Sys2Proof/Machine/Index.lean ====
section
/-! DEFINITION. The address register and the memory instructions (spec/43_index_memory.md R110 to R116). -/

namespace Sys2Proof.Machine

/-- `LD I,NNN` (R110). -/
def execLdI (nnn : Word) (s : State) : Result := (s.setI nnn).done

/-- `ADD I,VX` (R111): I is not masked to 12 bits and VF is not written. -/
def execAddI (x : Reg) (s : State) : Result := attempt (indexSum s.iReg (s.reg x)) (fun v => (s.setI v).done)

/-- `LD F,VX` (R112). -/
def execLdF (x : Reg) (s : State) : Result := (s.setI (glyphAddress (s.reg x))).done

/-- `LD B,VX` (R113). -/
def execLdB (x : Reg) (s : State) : Result :=
  attempt (s.writeBytes (s.effective 0) (decimalDigits (s.reg x))) State.done

/-- `LD [I],VX` (R114): I is not changed (D28, log 18). -/
def execStoreRegs (x : Reg) (s : State) : Result :=
  attempt (s.writeBytes (s.effective 0) (s.regsUpTo x)) State.done

/-- `LD VX,[I]` (R115): I is not changed (D28, log 18). All bytes are read before a register is written, so a fault
changes none (R146). -/
def execLoadRegs (x : Reg) (s : State) : Result :=
  attempt (s.readBytes (s.effective 0) (x.val + 1)) (fun bs => (s.setRegs 0 bs).done)

end Sys2Proof.Machine
end

