-- ==== Sys2Proof/Machine/KeypadTimers.lean ====
section
/-! DEFINITION. Keypad and timer instructions (spec/45_keypad_timers.md R130 to R135). The timer tick of the step comes
after the handler (R74). -/

namespace Sys2Proof.Machine

/-- `SKP VX` (R130). -/
def execSkp (x : Reg) (s : State) : Result := attempt (s.keyNumbered (s.reg x)) (fun b => s.skipIf b)

/-- `SKNP VX` (R131). -/
def execSknp (x : Reg) (s : State) : Result := attempt (s.keyNumbered (s.reg x)) (fun b => s.skipIf (!b))

/-- `LD VX,DT` (R132): the value before this step's tick. -/
def execLdVxDt (x : Reg) (s : State) : Result := (s.setReg x s.dt).done

/-- `LD VX,K` (R133): with no key pressed nothing changes and the step still completes; no key flag is written (D13,
log 15). -/
def execLdVxK (x : Reg) (s : State) : Result :=
  match scanKeys s.keys with
  | none => .next s
  | some k => (s.setReg x (BitVec.ofNat 8 k.val)).done

/-- `LD DT,VX` (R134). -/
def execLdDtVx (x : Reg) (s : State) : Result := { s with dt := s.reg x }.done

/-- `LD ST,VX` (R135). -/
def execLdStVx (x : Reg) (s : State) : Result := { s with st := s.reg x }.done

end Sys2Proof.Machine
end

