-- ==== Sys2Proof/Machine/Screen.lean ====
section
/-! DEFINITION. The display buffer and the display instructions CLS and DRW (spec/44_display.md R120 to R122). -/

namespace Sys2Proof.Machine

/-- `disp[y][x]` (R20). -/
def Display.pixel (d : Display) (y : Fin 32) (x : Fin 64) : Bool := (d.get y).get x

/-- `disp[y][x] <- b` (R20). -/
def Display.setPixel (d : Display) (y : Fin 32) (x : Fin 64) (b : Bool) : Display := d.set y ((d.get y).set x b)

/-- The display with all 2048 pixels 0 (R24, R120). -/
def clearDisplay : Display := Vector.replicate 32 (Vector.replicate 64 false)

/-- The columns of a sprite row whose bit is 1; column 0 is bit 7 (R121). -/
def setColumns (b : Byte) : List Nat := (List.range 8).filter (fun c => b.getLsbD (7 - c))

/-- The pixels under the 1 bits of one row: row `r` of a sprite at `(x0, y0)`, each axis wrapped on its own (R121,
R122.2). -/
def rowPoints (x0 y0 r : Nat) (b : Byte) : List (Fin 32 × Fin 64) :=
  (setColumns b).map (fun c => (Fin.ofNat 32 (y0 + r), Fin.ofNat 64 (x0 + c)))

/-- The pixels under the 1 bits of the rows `bs`, the first of them row `r`, in the order of the two loops of R121. -/
def spritePoints (x0 y0 : Nat) : Nat → List Byte → List (Fin 32 × Fin 64)
  | _, [] => []
  | r, b :: bs => rowPoints x0 y0 r b ++ spritePoints x0 y0 (r + 1) bs

/-- The body of the two loops: a pixel already 1 is a collision, and the pixel toggles (R121). -/
def togglePixel (acc : Display × Bool) (p : Fin 32 × Fin 64) : Display × Bool :=
  (acc.1.setPixel p.1 p.2 (acc.1.pixel p.1 p.2 ^^ true), acc.2 || acc.1.pixel p.1 p.2)

/-- The blit: the display after it and whether any pixel collided; the flag starts at 0 and is only raised (R121). -/
def blit (d : Display) (x0 y0 : Nat) (bs : List Byte) : Display × Bool :=
  (spritePoints x0 y0 0 bs).foldl togglePixel (d, false)

/-- The display becomes `d` (R20). -/
def State.setDisplay (s : State) (d : Display) : State := { s with disp := d }

/-- `CLS` (R120). -/
def execCls (s : State) : Result := (s.setDisplay clearDisplay).done

/-- `DRW VX,VY,N` (R121): both coordinates and all sprite bytes are read before VF or a pixel is written (R122.6, R146;
D10, log 13). -/
def execDrw (x y : Reg) (n : Fin 16) (s : State) : Result :=
  attempt (s.readBytes (s.effective 0) n.val) (fun bs =>
    let drawn := blit s.disp (s.reg x).toNat (s.reg y).toNat bs
    ((s.setFlag (flagByte drawn.2)).setDisplay drawn.1).done)

end Sys2Proof.Machine
end

