-- ==== Sys2Proof/Machine/Step.lean ====
section
/-! DEFINITION. One `step()`: fetch, decode, execute, timer tick (spec/40_step_cycle.md R70). -/

namespace Sys2Proof.Machine

/-- `step()` (R70): if a phase raises a fault, the phases after it do not run and the step ends with it (R75, R148). -/
def step (s : State) : Host.Outcome State Fault Refusal :=
  match s.fetchDecode with
  | .error f => raise f
  | .ok i => retire (exec i s)

/-- `s` with an instruction's word (numbered as spec/opcode_table.json numbers it, the bits at `nbits` and above 0)
stored where the next step fetches. It stands for the load of a program from outside the machine (log 24). -/
def State.withFetchWord (s : State) (nbits w : Nat) : State := s.placeAtPc (BitVec.ofNat 16 (w % 2 ^ nbits))

end Sys2Proof.Machine
end

