-- ==== Sys2Proof/Machine/External.lean ====
section
/-! DEFINITION. The host's operations on the core (spec/60_exceptions.md R155 to R162, spec/70_reset_and_hazards.md
R170 to R175): atomic transactions between steps. They are no instructions; `hostCall` says what each leaves and
answers. -/

namespace Sys2Proof.Machine

/-- What `snapshotState()` returns: every entity of the Machine State, without the instruction word (R159) and without
the model's own `draws` (log 2). The stack is the sequence oldest first; the memory is the abstract content in
canonical form, no byte format (D23, log 23). -/
structure Snapshot where
  regs : Vector Byte 16
  iReg : Word
  pc : Word
  stackOldestFirst : List Word
  dt : Byte
  st : Byte
  mem : Memory
  disp : Display
  keys : Vector Bool 16
  deriving DecidableEq, Repr

/-- A record that some `snapshotState()` could have produced: at most 16 stack entries, and memory content of the 4096
addresses (R160; every other field is within its width by its type). -/
def Snapshot.inDomain (r : Snapshot) : Bool :=
  decide (r.stackOldestFirst.length ≤ Config.stackDepth) && decide r.mem.wf

/-- The host's operations (the table of R155). A key index is the number the host passes, which may be too large. -/
inductive HostOp where
  | reset
  | loadROM (bytes : List Byte)
  | step
  | setKeyState (keyIndex : Nat) (pressed : Bool)
  | getDisplayBuffer
  | getSoundTimerValue
  | snapshotState
  | restoreState (r : Snapshot)
  deriving DecidableEq, Repr

/-- What an operation answers (the column "Result" of R155). -/
inductive Response where
  /-- No result. -/
  | none
  /-- `ok`, of `step()` and `loadROM` (R77, R172). -/
  | ok
  /-- A fault with its recorded value, of `step()` and `loadROM` (R77, R173). -/
  | faulted (f : Fault)
  /-- `setKeyState` with an index above 15: rejected (R156; D21, log 22). -/
  | rejected
  /-- A copy of the 64×32 grid (R157). -/
  | display (d : Display)
  /-- ST (R158). -/
  | sound (st : Byte)
  /-- A record of the whole Machine State (R159). -/
  | snapshot (r : Snapshot)
  deriving DecidableEq, Repr

/-- `reset()` on a running core (R170): every piece of the Machine State to its reset value. The model's own counter of
draws goes on, so that no draw is repeated (log 2). -/
def State.resetKeepingDraws (s : State) : State := { State.reset with draws := s.draws }

/-- `loadROM(bytes)` (R172): the length is checked first, and a refused load changes nothing (R173; D20, log 22). -/
def State.loadROM (s : State) (bytes : List Byte) : Except Fault State :=
  if bytes.length ≤ Config.romMax then
    let t := s.resetKeepingDraws
    .ok { t with mem := t.mem.setBytes Config.romBase bytes }
  else .error (.romTooLarge bytes.length)

/-- `snapshotState()` (R159). -/
def State.snapshot (s : State) : Snapshot where
  regs := s.regs
  iReg := s.iReg
  pc := s.pc
  stackOldestFirst := s.stack.reverse
  dt := s.dt
  st := s.st
  mem := s.mem
  disp := s.disp
  keys := s.keys

/-- `restoreState(r)` (R160): the whole Machine State replaced by the record; the counter of draws goes on (log 2). -/
def State.restore (s : State) (r : Snapshot) : State where
  regs := r.regs
  iReg := r.iReg
  pc := r.pc
  stack := r.stackOldestFirst.reverse
  dt := r.dt
  st := r.st
  mem := r.mem
  disp := r.disp
  keys := r.keys
  draws := s.draws

/-- `key[k] <- pressed` (R156). -/
def State.setKey (s : State) (k : Reg) (pressed : Bool) : State := { s with keys := s.keys.set k pressed }

/-- `step()` as the host sees it: `ok` and the next state, or the fault and the state unchanged (R77, R146; D5, log
9). -/
def hostStep (s : State) : Host.Outcome (Response × State) Fault Refusal :=
  match step s with
  | .next t => .next (.ok, t)
  | .fault f => .next (.faulted f, s)
  | .refused r => .refused r

/-- One host operation at a step boundary: its answer and the state it leaves (R155). A fault is an answer here, not a
stop: the host decides what to do after it (R147). -/
def hostCall (op : HostOp) (s : State) : Host.Outcome (Response × State) Fault Refusal :=
  match op with
  | .reset => .next (.none, s.resetKeepingDraws)
  | .loadROM bytes =>
    match s.loadROM bytes with
    | .ok t => .next (.ok, t)
    | .error f => .next (.faulted f, s)
  | .step => hostStep s
  | .setKeyState k pressed =>
    if k < 16 then .next (.none, s.setKey (Fin.ofNat 16 k) pressed) else .next (.rejected, s)
  | .getDisplayBuffer => .next (.display s.disp, s)
  | .getSoundTimerValue => .next (.sound s.st, s)
  | .snapshotState => .next (.snapshot s.snapshot, s)
  | .restoreState r => if r.inDomain then .next (.none, s.restore r) else .refused .snapshotOutOfDomain

/-- `tone = (ST != 0)`, the signal the host reads (R158). -/
def State.tone (s : State) : Bool := s.st != 0

/-- A sequence of host operations, each at a step boundary, never two at once (R161): the state they leave. -/
def hostRun : List HostOp → State → Host.Outcome State Fault Refusal
  | [], s => .next s
  | op :: ops, s =>
    match hostCall op s with
    | .next (_, t) => hostRun ops t
    | .fault f => .fault f
    | .refused r => .refused r

end Sys2Proof.Machine
end

