-- ==== Sys2Proof/Safety.lean ====
section
/-! DEFINITION. The terms claims are made in: the invariant of the state, what an instruction keeps (its frame), a
launched and a parked program, a safe run. -/

namespace Sys2Proof.Machine

/-- The invariant of every state the machine holds: the memory in canonical form within 4096 bytes (R30), at most 16
stack entries (R16). -/
abbrev State.wf (s : State) : Prop := s.mem.wf ∧ s.stack.length ≤ Config.stackDepth

/-- The bounds of R13 and R80: no instruction leaves more than 0x10FE in PC, and a pushed PC is one that was fetched
from. A restored snapshot need not meet them (R160). -/
abbrev State.pcBounded (s : State) : Prop := s.pc.toNat ≤ 0x10FE ∧ ∀ t ∈ s.stack, t.toNat ≤ 0xFFE

/-- The pieces of the state beside the general registers and PC. -/
inductive Piece where
  | iReg
  | stack
  | delay
  | sound
  | memory
  | display
  | keys
  | draws
  deriving DecidableEq, Repr

/-- A piece is the same in two states: memory by the bytes that every address reads as, the display by its pixels, the
keypad by its flags. -/
def Piece.Same (p : Piece) (s t : State) : Prop :=
  match p with
  | .iReg => t.iReg = s.iReg
  | .stack => t.stack = s.stack
  | .delay => t.dt = s.dt
  | .sound => t.st = s.st
  | .memory => ∀ a : Nat, t.readByte a = s.readByte a
  | .display => ∀ (y : Fin 32) (x : Fin 64), t.disp.pixel y x = s.disp.pixel y x
  | .keys => ∀ k : Reg, t.key k = s.key k
  | .draws => t.draws = s.draws

/-- The frame of an instruction: from `s` to `t`, everything but PC is kept, except the pieces and the general
registers named. -/
def KeepsExcept (pieces : List Piece) (regs : List Reg) (s t : State) : Prop :=
  (∀ p, p ∉ pieces → p.Same s t) ∧ ∀ r, r ∉ regs → t.reg r = s.reg r

/-- A program is launched: the state is `loadROM(rom)` applied to anything (R175). -/
def Launched (rom : List Byte) (t : State) : Prop := ∃ s : State, s.loadROM rom = .ok t

/-- A program is parked: PC addresses a `JP` to that same address (R181; D22, log 31). It says nothing about the
hardware stopping. -/
def Parked (s : State) : Prop := s.fetchDecode = .ok (.jp s.pc)

/-- A run of `k` steps with no fault and no refusal ends in `t` (R147: a faulted run is not a finished run). -/
def RunsTo (k : Nat) (s t : State) : Prop := core.run k s = .next t

/-! The fields of a word as numbers (R52), told apart from the decoder's own bit slices: claims about decoding use
these. -/

/-- `insn[11:8]` as the number `insn div 256 mod 16`. -/
def numX (w : Word) : Reg := Fin.ofNat 16 (w.toNat / 256)

/-- `insn[7:4]` as the number `insn div 16 mod 16`. -/
def numY (w : Word) : Reg := Fin.ofNat 16 (w.toNat / 16)

/-- `insn[3:0]` as the number `insn mod 16`. -/
def numN (w : Word) : Fin 16 := Fin.ofNat 16 w.toNat

/-- `insn[7:0]` as the number `insn mod 256`. -/
def numNN (w : Word) : Byte := BitVec.ofNat 8 w.toNat

/-- `insn[11:0]` as the number `insn mod 4096`. -/
def numNNN (w : Word) : Word := BitVec.ofNat 16 (w.toNat % 4096)

/-- A row of spec/opcode_table.json: every word that matches under the mask decodes to the instruction with the word's
fields; the bits outside mask and fields make no difference. -/
def DecodesTo (mask pattern : Word) (instr : Word → Instr) : Prop :=
  ∀ w : Word, w &&& mask = pattern → decode w = .instr (instr w)

/-- The big-endian word of two bytes as a number (R35). -/
def bigEndian (hi lo : Byte) : Word := BitVec.ofNat 16 (hi.toNat * 256 + lo.toNat)

/-- How many data bytes at I, I + 1, … an instruction reads or writes (R38, R116). -/
def dataBytes : Instr → Nat
  | .drw _ _ n => n.val
  | .ldB _ => 3
  | .storeRegs x => x.val + 1
  | .loadRegs x => x.val + 1
  | _ => 0

/-- When a step raises each fault (the table of R140, in the order of R148). -/
def FaultCause (s : State) : Fault → Prop
  | .addressRange a =>
    (4095 < s.pc.toNat + 1 ∧ a = max s.pc.toNat 4096) ∨
      ∃ i, s.fetchDecode = .ok i ∧ 0 < dataBytes i ∧ 4096 < s.iReg.toNat + dataBytes i ∧ a = max s.iReg.toNat 4096
  | .decodeError w => s.fetch = .ok w ∧ ∃ why, decode w = .illegal why
  | .stackUnderflow => s.fetchDecode = .ok .ret ∧ s.stack = []
  | .stackOverflow => ∃ nnn, s.fetchDecode = .ok (.call nnn) ∧ 16 ≤ s.stack.length
  | .keyRange v =>
    ∃ x, (s.fetchDecode = .ok (.skp x) ∨ s.fetchDecode = .ok (.sknp x)) ∧ v = s.reg x ∧ 15 < v.toNat
  | .indexOverflow => ∃ x, s.fetchDecode = .ok (.addI x) ∧ 0xFFFF < s.iReg.toNat + (s.reg x).toNat
  | .registerRange => False
  | .romTooLarge _ => False

/-- The instructions named in the column "Raised by" of R140: all others raise nothing once decoded. -/
def mayFault : Instr → Bool
  | .ret | .call _ | .drw _ _ _ | .ldB _ | .storeRegs _ | .loadRegs _ | .skp _ | .sknp _ | .addI _ => true
  | _ => false

/-- The pieces of state an instruction may change, from the prose of spec/10_state.md: the stack only `CALL` and `RET`
(R15), I only `LD I`, `ADD I` and `LD F` (R12), DT and ST only their loads (R19), memory only `LD B` and `LD [I]`
(R30), the display only `CLS` and `DRW` (R20), the key flags none (R21). -/
def writtenPieces : Instr → List Piece
  | .ret | .call _ => [.stack]
  | .ldI _ | .addI _ | .ldF _ => [.iReg]
  | .ldDtVx _ => [.delay]
  | .ldStVx _ => [.sound]
  | .ldB _ | .storeRegs _ => [.memory]
  | .cls | .drw _ _ _ => [.display]
  | .rnd _ _ => [.draws]
  | _ => []

/-- The six instructions that write VF as a side effect (the table of R11). -/
def flagWriter : Instr → Bool
  | .addReg _ _ | .sub _ _ | .shr _ | .subn _ _ | .shl _ | .drw _ _ _ => true
  | _ => false

/-- The registers an instruction names as its destination (R10). -/
def destinations : Instr → List Reg
  | .ldImm x _ | .addImm x _ | .rnd x _ => [x]
  | .ldReg x _ | .orReg x _ | .andReg x _ | .xorReg x _ | .addReg x _ | .sub x _ | .subn x _ => [x]
  | .shr x | .shl x | .ldVxDt x | .ldVxK x => [x]
  | .loadRegs x => (List.finRange 16).filter (fun r => r ≤ x)
  | _ => []

/-- The pixel `(px, py)` lies under a 1 bit of the `n`-row sprite at I, drawn at `(x0, y0)`: row `r` is the byte at
`I + r`, column `c` its bit `7 - c`, each axis wrapped on its own (R121). -/
def UnderSprite (s : State) (x0 y0 n : Nat) (py : Fin 32) (px : Fin 64) : Prop :=
  ∃ r c, r < n ∧ c < 8 ∧ (∃ b, s.readByte (s.iReg.toNat + r) = .ok b ∧ b.getLsbD (7 - c) = true) ∧
    px.val = (x0 + c) % 64 ∧ py.val = (y0 + r) % 32

end Sys2Proof.Machine
end

