-- ==== Sys2Proof/Certificates/Slice0/Obligations.lean ====
section
/-! DEFINITION. The statements for the provers, in the order of OBLIGATIONS.json: the step and the decoder, the state
and its invariants, the host's operations, then the instructions family by family. -/

open Sys2Proof Sys2Proof.Machine

/-! The step cycle -/

/-- O1, R70: the phases of a step. The first fetch fault, then `DecodeError`, then the handler's own end; a completed
handler is followed by the timer tick and by nothing else. -/
def Obligations.StepFetchesDecodesExecutesTicks : Prop :=
  ∀ s : State,
    (∀ f, s.readByte s.pc.toNat = .error f → step s = .fault f) ∧
    (∀ hi f, s.readByte s.pc.toNat = .ok hi → s.readByte (s.pc.toNat + 1) = .error f → step s = .fault f) ∧
    ∀ hi lo, s.readByte s.pc.toNat = .ok hi → s.readByte (s.pc.toNat + 1) = .ok lo →
      (∀ why, decode (bigEndian hi lo) = .illegal why → step s = .fault (.decodeError (bigEndian hi lo))) ∧
      ∀ i, decode (bigEndian hi lo) = .instr i →
        (∀ t, exec i s = .next t → step s = .next { t with
          dt := if t.dt = 0 then 0 else t.dt - 1, st := if t.st = 0 then 0 else t.st - 1 }) ∧
        ∀ f, exec i s = .fault f → step s = .fault f

/-- O2, R71 and R35: the fetch is the big-endian pair at PC and PC + 1, of any parity; it faults only past 4094; and a
loaded program's first fetch is the instruction at 0x200 (a missing second byte is the zero that reset left). That an
odd PC is fetched from like any other is the model's choice (D15, log 17). -/
def Obligations.FetchIsBigEndianAtPc : Prop :=
  (∀ s : State, s.pc.toNat ≤ 4094 → ∃ hi lo, s.readByte s.pc.toNat = .ok hi ∧
    s.readByte (s.pc.toNat + 1) = .ok lo ∧ s.fetch = .ok (bigEndian hi lo)) ∧
  (∀ s : State, 4095 < s.pc.toNat → step s = .fault (.addressRange s.pc.toNat)) ∧
  (∀ s : State, s.pc.toNat = 4095 → step s = .fault (.addressRange 4096)) ∧
  ∀ (s t : State) (rom : List Byte), rom.length ≤ 3584 → s.loadROM rom = .ok t →
    t.pc = 0x200 ∧ t.fetch = .ok (bigEndian (rom.getD 0 0) (rom.getD 1 0)) ∧
    ∀ i, decode (bigEndian (rom.getD 0 0) (rom.getD 1 0)) = .instr i → step t = retire (exec i t)

/-! The decoder -/

/-- O3, R54: the one-level families. The numerals are the spec's `[from general knowledge, not in source]` (D2, log 4);
that the low nibble of 5XY- and 9XY- makes no difference is R57's `[derived]` (log 5). -/
def Obligations.OneLevelFamiliesDecode : Prop :=
  DecodesTo 0xF000 0x1000 (fun w => .jp (numNNN w)) ∧ DecodesTo 0xF000 0x2000 (fun w => .call (numNNN w)) ∧
  DecodesTo 0xF000 0x3000 (fun w => .seImm (numX w) (numNN w)) ∧
  DecodesTo 0xF000 0x4000 (fun w => .sneImm (numX w) (numNN w)) ∧
  DecodesTo 0xF000 0x5000 (fun w => .seReg (numX w) (numY w)) ∧
  DecodesTo 0xF000 0x6000 (fun w => .ldImm (numX w) (numNN w)) ∧
  DecodesTo 0xF000 0x7000 (fun w => .addImm (numX w) (numNN w)) ∧
  DecodesTo 0xF000 0x9000 (fun w => .sneReg (numX w) (numY w)) ∧
  DecodesTo 0xF000 0xA000 (fun w => .ldI (numNNN w)) ∧ DecodesTo 0xF000 0xB000 (fun w => .jpV0 (numNNN w)) ∧
  DecodesTo 0xF000 0xC000 (fun w => .rnd (numX w) (numNN w)) ∧
  DecodesTo 0xF000 0xD000 (fun w => .drw (numX w) (numY w) (numN w))

/-- O4, R55: families 0 and 8. The family-8 selectors are the spec's `[from general knowledge, not in source]` (D2, log
4); the ignored bits are R57's `[derived]` (log 5). -/
def Obligations.FamiliesZeroAndEightDecode : Prop :=
  DecodesTo 0xF0FF 0x00E0 (fun _ => .cls) ∧ DecodesTo 0xF0FF 0x00EE (fun _ => .ret) ∧
  DecodesTo 0xF00F 0x8000 (fun w => .ldReg (numX w) (numY w)) ∧
  DecodesTo 0xF00F 0x8001 (fun w => .orReg (numX w) (numY w)) ∧
  DecodesTo 0xF00F 0x8002 (fun w => .andReg (numX w) (numY w)) ∧
  DecodesTo 0xF00F 0x8003 (fun w => .xorReg (numX w) (numY w)) ∧
  DecodesTo 0xF00F 0x8004 (fun w => .addReg (numX w) (numY w)) ∧
  DecodesTo 0xF00F 0x8005 (fun w => .sub (numX w) (numY w)) ∧
  DecodesTo 0xF00F 0x8006 (fun w => .shr (numX w)) ∧
  DecodesTo 0xF00F 0x8007 (fun w => .subn (numX w) (numY w)) ∧
  DecodesTo 0xF00F 0x800E (fun w => .shl (numX w))

/-- O5, R56: families E and F. The selectors other than 0x18 and 0x1E are the spec's `[from general knowledge, not in
source]` (D2, log 4); that family E looks at the whole low byte is D4 (log 6). -/
def Obligations.FamiliesEAndFDecode : Prop :=
  DecodesTo 0xF0FF 0xE09E (fun w => .skp (numX w)) ∧ DecodesTo 0xF0FF 0xE0A1 (fun w => .sknp (numX w)) ∧
  DecodesTo 0xF0FF 0xF007 (fun w => .ldVxDt (numX w)) ∧ DecodesTo 0xF0FF 0xF00A (fun w => .ldVxK (numX w)) ∧
  DecodesTo 0xF0FF 0xF015 (fun w => .ldDtVx (numX w)) ∧ DecodesTo 0xF0FF 0xF018 (fun w => .ldStVx (numX w)) ∧
  DecodesTo 0xF0FF 0xF01E (fun w => .addI (numX w)) ∧ DecodesTo 0xF0FF 0xF029 (fun w => .ldF (numX w)) ∧
  DecodesTo 0xF0FF 0xF033 (fun w => .ldB (numX w)) ∧ DecodesTo 0xF0FF 0xF055 (fun w => .storeRegs (numX w)) ∧
  DecodesTo 0xF0FF 0xF065 (fun w => .loadRegs (numX w))

/-- O6, R58: exactly the words of the table of R58 have no operation. The selectors it lists are those of D2 and D4 (log
4, 6). -/
def Obligations.IllegalWordsAreTheListed : Prop :=
  ∀ w : Word, (∃ why, decode w = .illegal why) ↔
    (w.toNat / 4096 = 0x0 ∧ w.toNat % 256 ∉ [0xE0, 0xEE]) ∨
    (w.toNat / 4096 = 0x8 ∧ w.toNat % 16 ∈ [0x8, 0x9, 0xA, 0xB, 0xC, 0xD, 0xF]) ∨
    (w.toNat / 4096 = 0xE ∧ w.toNat % 256 ∉ [0x9E, 0xA1]) ∨
    (w.toNat / 4096 = 0xF ∧ w.toNat % 256 ∉ [0x07, 0x0A, 0x15, 0x18, 0x1E, 0x29, 0x33, 0x55, 0x65])

/-- O7: the decoder reads every well-formed instruction back from its word. -/
def Obligations.DecodeOfEncode : Prop := ∀ i : Instr, i.WellFormed → decode (encode i) = .instr i

/-- O8: a decoded instruction is well-formed, and its word is the decoded word with 0 in the bits that R57 calls
ignored (log 5, 28). -/
def Obligations.EncodeOfDecode : Prop :=
  ∀ (w : Word) (i : Instr), decode w = .instr i → i.WellFormed ∧ encode i = w &&& ~~~(ignoredBits i)

/-- O9: a few words of spec/95_test_vectors.md 2.1. The numerals are D2 (log 4, PRESUMED); `5127` and `8AB6` decode
because the bits that no dispatch level examines are ignored (D3, log 5); `E30E` is illegal because family E looks at
the whole low byte (D4, log 6). -/
def Obligations.SpecWordsDecode : Prop :=
  decode 0x00E0 = .instr .cls ∧ decode 0x1ABC = .instr (.jp 0xABC) ∧ decode 0x5127 = .instr (.seReg 1 2) ∧
  decode 0x8AB6 = .instr (.shr 0xA) ∧ decode 0xD125 = .instr (.drw 1 2 5) ∧ decode 0xF365 = .instr (.loadRegs 3) ∧
  decode 0x0000 = .illegal .family0 ∧ decode 0x812F = .illegal .family8 ∧ decode 0xE30E = .illegal .familyE ∧
  decode 0xF375 = .illegal .familyF

/-! The state, its invariants and what may change it -/

/-- O10, R74 (its three consequences are the spec's `[derived]`): each timer ends a completed step one lower, never
below 0, than the handler left it, and only `LD DT` and `LD ST` leave another value than the step found; `LD VX,DT`
reads DT before the tick; a stalled key wait ticks. -/
def Obligations.TimersTickAfterTheHandler : Prop :=
  ∀ s t : State, step s = .next t → ∃ i, s.fetchDecode = .ok i ∧
    (∀ x, i = .ldDtVx x → t.dt.toNat = (s.reg x).toNat - 1) ∧
    ((∀ x, i ≠ .ldDtVx x) → t.dt.toNat = s.dt.toNat - 1) ∧
    (∀ x, i = .ldStVx x → t.st.toNat = (s.reg x).toNat - 1) ∧
    ((∀ x, i ≠ .ldStVx x) → t.st.toNat = s.st.toNat - 1) ∧
    (∀ x, i = .ldVxDt x → t.reg x = s.dt) ∧
    ∀ x, i = .ldVxK x → (∀ k, s.key k = false) → t.pc = s.pc

/-- O11, R24: the table of the reset values. The font's bytes are the model's PRESUMED default (R34, log 3); the
model's own `draws` is left out. -/
def Obligations.ResetValues : Prop :=
  (∀ r, State.reset.reg r = 0) ∧ State.reset.iReg = 0 ∧ State.reset.pc = 0x200 ∧ State.reset.sp = 0 ∧
  State.reset.dt = 0 ∧ State.reset.st = 0 ∧
  (∀ a, a ≤ 0x4F → State.reset.readByte a = .ok (fontBytes.getD a 0)) ∧
  (∀ a, 0x50 ≤ a → a ≤ 0xFFF → State.reset.readByte a = .ok 0) ∧
  (∀ y x, State.reset.disp.pixel y x = false) ∧ ∀ k, State.reset.key k = false

/-- O12: every step keeps the memory canonical and within 4096 bytes and the stack within 16 entries (R30, R16). -/
def Obligations.StepKeepsStateWf : Prop := ∀ s t : State, s.wf → step s = .next t → t.wf

/-- O13: the reset state has the invariant of O12. -/
def Obligations.ResetHasStateWf : Prop := State.reset.wf

/-- O14: no step leaves more than 0x10FE in PC, nor pushes a PC from which nothing was fetched (R13, R80: the spec's
`[derived]` bounds). -/
def Obligations.StepKeepsPcBounds : Prop := ∀ s t : State, s.pcBounded → step s = .next t → t.pcBounded

/-- O15: the reset state has the bounds of O14. -/
def Obligations.ResetHasPcBounds : Prop := State.reset.pcBounded

/-- O16, R140 and R148: a step raises a fault exactly when its cause holds, with the value recorded, and it is never
refused. `StackOverflow`, `KeyRange` and `IndexOverflow` are the spec's decisions D7, D11, D14 (log 7, 14, 16), the
recorded values D6 (log 10). -/
def Obligations.StepFaultsExactlyOnTheirCauses : Prop :=
  ∀ s : State, (∀ f, step s = .fault f ↔ FaultCause s f) ∧ ∀ r, step s ≠ .refused r

/-- O17, R140: an instruction not named in the column "Raised by" raises nothing, in any state. -/
def Obligations.OtherInstructionsNeverFault : Prop :=
  ∀ (i : Instr) (s : State), mayFault i = false → ∃ t, exec i s = .next t

/-- O18: no instruction changes a piece of the state that the prose of spec/10_state.md and R30 does not give it to
change; no instruction writes a key flag (R12, R15, R19, R20, R21, R30; for the key wait D13, log 15). -/
def Obligations.PiecesChangeOnlyByTheirWriters : Prop :=
  ∀ (i : Instr) (s t : State), exec i s = .next t → ∀ p : Piece, p ∉ writtenPieces i → p.Same s t

/-- O19, R11: only the six flag writers, and an instruction that names VF as its destination, change VF; and each of the
six leaves 0 or 1 in VF where VF is not its own destination. -/
def Obligations.OnlyFlagWritersTouchVf : Prop :=
  ∀ (i : Instr) (s t : State), exec i s = .next t →
    (flagWriter i = false → vf ∉ destinations i → t.reg vf = s.reg vf) ∧
    (flagWriter i = true → vf ∉ destinations i → t.reg vf = 0 ∨ t.reg vf = 1)

/-- O20, R14: the table of PC after the handler. The model's choices in it: sums are modulo 65536 (D29, log 19), and a
completed `SKP` or `SKNP` had VX at most 15, since a larger value faults (D11, log 14). -/
def Obligations.PcAfterTheHandler : Prop :=
  ∀ (i : Instr) (s t : State), i.WellFormed → exec i s = .next t →
    match i with
    | .jp nnn => t.pc = nnn
    | .call nnn => t.pc = nnn ∧ t.slot s.sp = some s.pc
    | .jpV0 nnn => t.pc.toNat = nnn.toNat + (s.reg 0).toNat ∧ t.pc.toNat ≤ 0x10FE
    | .ret => ∃ a u, s.pop = .ok (a, u) ∧ t.pc = a + 2
    | .seImm x nn => t.pc = if s.reg x = nn then s.pc + 4 else s.pc + 2
    | .sneImm x nn => t.pc = if s.reg x ≠ nn then s.pc + 4 else s.pc + 2
    | .seReg x y => t.pc = if s.reg x = s.reg y then s.pc + 4 else s.pc + 2
    | .sneReg x y => t.pc = if s.reg x ≠ s.reg y then s.pc + 4 else s.pc + 2
    | .skp x => ∃ k : Reg, k.val = (s.reg x).toNat ∧ t.pc = if s.key k = true then s.pc + 4 else s.pc + 2
    | .sknp x => ∃ k : Reg, k.val = (s.reg x).toNat ∧ t.pc = if s.key k = false then s.pc + 4 else s.pc + 2
    | .ldVxK _ => ((∃ k, s.key k = true) → t.pc = s.pc + 2) ∧ ((∀ k, s.key k = false) → t.pc = s.pc)
    | _ => t.pc = s.pc + 2

/-- O21, R78: a step's result depends on the state and, for `RND` alone, on the byte drawn. The counter `draws` is the
model's own (log 1); it stands for the free input. -/
def Obligations.OnlyRndDependsOnTheDraw : Prop :=
  ∀ (s : State) (d : Nat) (i : Instr), s.fetchDecode = .ok i →
    ((∀ x nn, i ≠ .rnd x nn) →
      (∀ t, step s = .next t → step { s with draws := d } = .next { t with draws := d }) ∧
      (∀ f, step s = .fault f → step { s with draws := d } = .fault f)) ∧
    ∀ x nn, i = .rnd x nn → ∃ t u, step s = .next t ∧ step { s with draws := d } = .next u ∧
      t.pc = u.pc ∧ KeepsExcept [.draws] [x] t u

/-- O22, R36 and R42 (the spec's `[derived]`): register bytes stored by `LD [I],VX` are the next fetch's big-endian
word, the register at the lower address in `insn[15:8]`. -/
def Obligations.StoreIsSeenByTheNextFetch : Prop :=
  ∀ (x : Reg) (s t u : State) (k : Nat), exec (.storeRegs x) s = .next t → k + 1 ≤ x.val → u.mem = t.mem →
    u.pc.toNat = s.iReg.toNat + k →
    u.fetch = .ok (bigEndian (s.reg (Fin.ofNat 16 k)) (s.reg (Fin.ofNat 16 (k + 1))))

/-- O23, R80 and R82: a `RET` after a `CALL`, wherever the subroutine's end stands, resumes at the instruction after
the `CALL` with everything else as before the call. -/
def Obligations.ReturnResumesAfterTheCall : Prop :=
  ∀ (nnn p : Word) (s : State), s.sp < 16 →
    ∃ t, exec (.call nnn) s = .next t ∧ t.pc = nnn ∧ exec .ret { t with pc := p } = .next { s with pc := s.pc + 2 }

/-- O24, R181 (the convention D22, log 31): a parked program stays where it is for any number of steps, and only the
timers fall, to 0, and stay. -/
def Obligations.ParkedStaysParked : Prop :=
  ∀ (k : Nat) (s : State), Parked s → ∃ t, RunsTo k s t ∧ Parked t ∧
    t = { s with dt := BitVec.ofNat 8 (s.dt.toNat - k), st := BitVec.ofNat 8 (s.st.toNat - k) }

/-! Memory and stack primitives -/

/-- O25, R31 and R32: `MemRead` and `MemWrite`; every address 0 to 4095 is writable, the font included, and no access
wraps. -/
def Obligations.MemReadAndMemWrite : Prop :=
  ∀ (s : State) (a : Nat) (v : Byte),
    (4095 < a → s.readByte a = .error (.addressRange a) ∧ s.writeByte a v = .error (.addressRange a)) ∧
    (a ≤ 4095 → (∃ b, s.readByte a = .ok b) ∧ ∃ t, s.writeByte a v = .ok t ∧ t.readByte a = .ok v ∧
      (∀ b, b ≠ a → t.readByte b = s.readByte b) ∧ t.pc = s.pc ∧ KeepsExcept [.memory] [] s t)

/-- O26, R18: `pop()`. -/
def Obligations.PopTakesTheLastSlot : Prop :=
  ∀ s : State, (s.sp = 0 → s.pop = .error .stackUnderflow) ∧
    ∀ n, s.sp = n + 1 → ∃ v t, s.pop = .ok (v, t) ∧ t.sp = n ∧ s.slot n = some v ∧ (∀ k, k < n → t.slot k = s.slot k) ∧
      t.pc = s.pc ∧ KeepsExcept [.stack] [] s t

/-! The host's operations -/

/-- O27, R170: `reset()` from any state; twice is once; and with no ROM loaded the first step raises
`DecodeError(0x0000)` (the spec's `[derived]`). The font's bytes are the model's PRESUMED default (log 3). -/
def Obligations.ResetOperation : Prop :=
  ∀ s : State, ∃ t, hostCall .reset s = .next (.none, t) ∧ (∀ r, t.reg r = 0) ∧ t.iReg = 0 ∧ t.pc = 0x200 ∧
    t.sp = 0 ∧ t.dt = 0 ∧ t.st = 0 ∧
    (∀ a, a < 4096 → t.readByte a = .ok (if a < 80 then fontBytes.getD a 0 else 0)) ∧
    (∀ y x, t.disp.pixel y x = false) ∧ (∀ k, t.key k = false) ∧
    hostCall .reset t = .next (.none, t) ∧ step t = .fault (.decodeError 0x0000)

/-- O28, R172 and R173: `loadROM`. That a refused load changes nothing is D20 (log 22); the font's bytes are the model's
PRESUMED default (log 3). -/
def Obligations.LoadRomOperation : Prop :=
  ∀ (s : State) (rom : List Byte),
    (rom.length ≤ 3584 → ∃ t, hostCall (.loadROM rom) s = .next (.ok, t) ∧ Launched rom t ∧
      (∀ a, a < 4096 → t.readByte a = .ok (if 0x200 ≤ a ∧ a < 0x200 + rom.length then rom.getD (a - 0x200) 0
        else if a < 80 then fontBytes.getD a 0 else 0)) ∧
      t.pc = 0x200 ∧ KeepsExcept [.memory, .draws] [] State.reset t) ∧
    (3584 < rom.length → hostCall (.loadROM rom) s = .next (.faulted (.romTooLarge rom.length), s))

/-- O29, R156: `setKeyState`. That an index above 15 is rejected is D21 (log 22). -/
def Obligations.SetKeyStateOperation : Prop :=
  ∀ (s : State) (k : Nat) (pressed : Bool),
    (∀ q : Reg, q.val = k → ∃ t, hostCall (.setKeyState k pressed) s = .next (.none, t) ∧ t.key q = pressed ∧
      (∀ j, j ≠ q → t.key j = s.key j) ∧ t.pc = s.pc ∧ KeepsExcept [.keys] [] s t) ∧
    (15 < k → hostCall (.setKeyState k pressed) s = .next (.rejected, s))

/-- O30, R157 and R158: the read-outs answer the display and ST as they stand and change no state; the tone is
`ST != 0`. -/
def Obligations.ReadOutsChangeNothing : Prop :=
  ∀ s : State, hostCall .getDisplayBuffer s = .next (.display s.disp, s) ∧
    hostCall .getSoundTimerValue s = .next (.sound s.st, s) ∧ (s.tone = true ↔ s.st.toNat ≠ 0)

/-- O31, R159 and R160: a snapshot restored, into any state the core is in by then, gives back every entity of the
Machine State; the model's own counter of draws goes on (log 2). -/
def Obligations.RestoreOfSnapshot : Prop :=
  ∀ s : State, s.wf → ∃ r, hostCall .snapshotState s = .next (.snapshot r, s) ∧
    ∀ u : State, hostCall (.restoreState r) u = .next (.none, { s with draws := u.draws })

/-- O32, R146 and R147 (D5, log 9): a faulting step hands the fault to the host and leaves the state as it was, so the
next step faults in the same way. -/
def Obligations.FaultLeavesTheStateUnchanged : Prop :=
  ∀ (s : State) (f : Fault), step s = .fault f →
    hostCall .step s = .next (.faulted f, s) ∧ ∀ k, hostRun (List.replicate k .step) s = .next s

/-- O33: every sequence of host operations keeps the invariant of O12, whatever a program does between (R161, R162). -/
def Obligations.HostRunKeepsStateWf : Prop :=
  ∀ (ops : List HostOp) (s t : State), s.wf → hostRun ops s = .next t → t.wf

/-! Control transfer -/

/-- O34, R80: `RET`; the sum is modulo 65536 (D29, log 19). -/
def Obligations.RetPopsAndAddsTwo : Prop :=
  ∀ s : State, (s.sp = 0 → exec .ret s = .fault .stackUnderflow) ∧
    ∀ (n : Nat) (a : Word), s.sp = n + 1 → s.slot n = some a → ∃ t, exec .ret s = .next t ∧ t.pc = a + 2 ∧ t.sp = n ∧
      (∀ k, k < n → t.slot k = s.slot k) ∧ KeepsExcept [.stack] [] s t

/-- O35, R81 and R87: `JP NNN` and `JP V0,NNN`, whose sum is not masked to 12 bits. -/
def Obligations.JumpsSetPc : Prop :=
  ∀ (nnn : Word) (s : State),
    (∃ t, exec (.jp nnn) s = .next t ∧ t.pc = nnn ∧ KeepsExcept [] [] s t) ∧
    ∃ t, exec (.jpV0 nnn) s = .next t ∧ KeepsExcept [] [] s t ∧
      (nnn.toNat ≤ 0xFFF → t.pc.toNat = nnn.toNat + (s.reg 0).toNat)

/-- O36, R82: `CALL NNN` pushes its own address; the fault of a 17th push is D7 (log 7). -/
def Obligations.CallPushesItsOwnAddress : Prop :=
  ∀ (nnn : Word) (s : State),
    (s.sp < 16 → ∃ t, exec (.call nnn) s = .next t ∧ t.pc = nnn ∧ t.sp = s.sp + 1 ∧ t.slot s.sp = some s.pc ∧
      (∀ k, k < s.sp → t.slot k = s.slot k) ∧ KeepsExcept [.stack] [] s t) ∧
    (16 ≤ s.sp → exec (.call nnn) s = .fault .stackOverflow)

/-- O37, R83 and R84: the skips on an immediate. -/
def Obligations.SkipsOnImmediate : Prop :=
  ∀ (x : Reg) (nn : Byte) (s : State),
    (∃ t, exec (.seImm x nn) s = .next t ∧ KeepsExcept [] [] s t ∧
      (s.reg x = nn → t.pc = s.pc + 4) ∧ (s.reg x ≠ nn → t.pc = s.pc + 2)) ∧
    ∃ t, exec (.sneImm x nn) s = .next t ∧ KeepsExcept [] [] s t ∧
      (s.reg x ≠ nn → t.pc = s.pc + 4) ∧ (s.reg x = nn → t.pc = s.pc + 2)

/-- O38, R85 and R86: the skips on two registers. -/
def Obligations.SkipsOnRegisters : Prop :=
  ∀ (x y : Reg) (s : State),
    (∃ t, exec (.seReg x y) s = .next t ∧ KeepsExcept [] [] s t ∧
      (s.reg x = s.reg y → t.pc = s.pc + 4) ∧ (s.reg x ≠ s.reg y → t.pc = s.pc + 2)) ∧
    ∃ t, exec (.sneReg x y) s = .next t ∧ KeepsExcept [] [] s t ∧
      (s.reg x ≠ s.reg y → t.pc = s.pc + 4) ∧ (s.reg x = s.reg y → t.pc = s.pc + 2)

/-! Loads, ALU operations and RND -/

/-- O39, R90, R91 and R92: the loads and the immediate add, which wraps modulo 256 and writes no flag. -/
def Obligations.LoadsAndAddImmediate : Prop :=
  ∀ (x y : Reg) (nn : Byte) (s : State),
    (∃ t, exec (.ldImm x nn) s = .next t ∧ t.reg x = nn ∧ t.pc = s.pc + 2 ∧ KeepsExcept [] [x] s t) ∧
    (∃ t, exec (.addImm x nn) s = .next t ∧ (t.reg x).toNat = ((s.reg x).toNat + nn.toNat) % 256 ∧
      t.pc = s.pc + 2 ∧ KeepsExcept [] [x] s t) ∧
    ∃ t, exec (.ldReg x y) s = .next t ∧ t.reg x = s.reg y ∧ t.pc = s.pc + 2 ∧ KeepsExcept [] [x] s t

/-- O40, R93, R94 and R95: OR, AND and XOR, bit by bit, with no flag. -/
def Obligations.BitwiseOperations : Prop :=
  ∀ (x y : Reg) (s : State),
    (∃ t, exec (.orReg x y) s = .next t ∧ t.pc = s.pc + 2 ∧ KeepsExcept [] [x] s t ∧
      ∀ b, (t.reg x).getLsbD b = ((s.reg x).getLsbD b || (s.reg y).getLsbD b)) ∧
    (∃ t, exec (.andReg x y) s = .next t ∧ t.pc = s.pc + 2 ∧ KeepsExcept [] [x] s t ∧
      ∀ b, (t.reg x).getLsbD b = ((s.reg x).getLsbD b && (s.reg y).getLsbD b)) ∧
    ∃ t, exec (.xorReg x y) s = .next t ∧ t.pc = s.pc + 2 ∧ KeepsExcept [] [x] s t ∧
      ∀ b, (t.reg x).getLsbD b = ((s.reg x).getLsbD b ^^ (s.reg y).getLsbD b)

/-- O41, R97: `ADD VX,VY`: the sum modulo 256, then VF the carry, which overwrites the sum when X = F (D9, log 11). -/
def Obligations.AddRegistersWithCarry : Prop :=
  ∀ (x y : Reg) (s : State), ∃ t, exec (.addReg x y) s = .next t ∧
    (x ≠ vf → (t.reg x).toNat = ((s.reg x).toNat + (s.reg y).toNat) % 256) ∧
    (t.reg vf).toNat = (if 255 < (s.reg x).toNat + (s.reg y).toNat then 1 else 0) ∧
    t.pc = s.pc + 2 ∧ KeepsExcept [] [x, vf] s t

/-- O42, R98 and R100: `SUB` and `SUBN`: first VF, 1 when nothing is borrowed, then the difference modulo 256 of the
registers as they then stand. VF at equal operands in `SUBN` is D8 (log 12), the order D9 (log 11). -/
def Obligations.SubtractionsWithBorrow : Prop :=
  ∀ (x y : Reg) (s : State),
    (∃ (t : State) (f : Byte), exec (.sub x y) s = .next t ∧
      f.toNat = (if (s.reg y).toNat ≤ (s.reg x).toNat then 1 else 0) ∧ (x ≠ vf → t.reg vf = f) ∧
      t.reg x = (if x = vf then f else s.reg x) - (if y = vf then f else s.reg y) ∧
      t.pc = s.pc + 2 ∧ KeepsExcept [] [x, vf] s t) ∧
    ∃ (t : State) (f : Byte), exec (.subn x y) s = .next t ∧
      f.toNat = (if (s.reg x).toNat ≤ (s.reg y).toNat then 1 else 0) ∧ (x ≠ vf → t.reg vf = f) ∧
      t.reg x = (if y = vf then f else s.reg y) - (if x = vf then f else s.reg x) ∧
      t.pc = s.pc + 2 ∧ KeepsExcept [] [x, vf] s t

/-- O43, R99 and R101: `SHR` and `SHL` by one: first VF, the bit shifted out, then the shift of VX as it then stands
(the order: D9, log 11). -/
def Obligations.ShiftsByOne : Prop :=
  ∀ (x : Reg) (s : State),
    (∃ t, exec (.shr x) s = .next t ∧ (x ≠ vf → (t.reg vf).toNat = (s.reg x).toNat % 2 ∧
      (t.reg x).toNat = (s.reg x).toNat / 2) ∧ (x = vf → t.reg vf = 0) ∧
      t.pc = s.pc + 2 ∧ KeepsExcept [] [x, vf] s t) ∧
    ∃ t, exec (.shl x) s = .next t ∧ (x ≠ vf → (t.reg vf).toNat = (s.reg x).toNat / 128 ∧
      (t.reg x).toNat = (s.reg x).toNat * 2 % 256) ∧ (x = vf → (t.reg vf).toNat = 2 * ((s.reg vf).toNat / 128)) ∧
      t.pc = s.pc + 2 ∧ KeepsExcept [] [x, vf] s t

/-- O44, R96: the columns X = F, Y = F and X = Y = F of the table for `ADD`, `SUB` and `SUBN`, in numbers (D9, log 11). -/
def Obligations.VfAsAnOperand : Prop :=
  ∀ (r : Reg) (s : State), r ≠ vf →
    (∀ t, exec (.addReg vf r) s = .next t →
      (t.reg vf).toNat = if 255 < (s.reg vf).toNat + (s.reg r).toNat then 1 else 0) ∧
    (∀ t, exec (.addReg r vf) s = .next t → (t.reg r).toNat = ((s.reg r).toNat + (s.reg vf).toNat) % 256 ∧
      (t.reg vf).toNat = if 255 < (s.reg r).toNat + (s.reg vf).toNat then 1 else 0) ∧
    (∀ t, exec (.addReg vf vf) s = .next t →
      (t.reg vf).toNat = if 255 < (s.reg vf).toNat + (s.reg vf).toNat then 1 else 0) ∧
    (∀ t, exec (.sub vf r) s = .next t →
      (t.reg vf).toNat = ((if (s.reg r).toNat ≤ (s.reg vf).toNat then 1 else 0) + 256 - (s.reg r).toNat) % 256) ∧
    (∀ t, exec (.sub r vf) s = .next t →
      (t.reg vf).toNat = (if (s.reg vf).toNat ≤ (s.reg r).toNat then 1 else 0) ∧
      (t.reg r).toNat = ((s.reg r).toNat + 256 - (t.reg vf).toNat) % 256) ∧
    (∀ t, exec (.sub vf vf) s = .next t → t.reg vf = 0) ∧
    (∀ t, exec (.subn vf r) s = .next t →
      (t.reg vf).toNat = ((s.reg r).toNat + 256 - (if (s.reg vf).toNat ≤ (s.reg r).toNat then 1 else 0)) % 256) ∧
    (∀ t, exec (.subn r vf) s = .next t →
      (t.reg vf).toNat = (if (s.reg r).toNat ≤ (s.reg vf).toNat then 1 else 0) ∧
      (t.reg r).toNat = ((t.reg vf).toNat + 256 - (s.reg r).toNat) % 256) ∧
    ∀ t, exec (.subn vf vf) s = .next t → t.reg vf = 0

/-- O45, R106: `RND`: some byte AND NN, no bit outside NN; the byte is the free value of this execution, of which
nothing is known (D17, log 1), and the next execution draws anew. -/
def Obligations.RndMasksTheDraw : Prop :=
  ∀ (x : Reg) (nn : Byte) (s : State), ∃ t, exec (.rnd x nn) s = .next t ∧
    t.reg x = Config.randomByte s.draws &&& nn ∧ t.reg x &&& ~~~nn = 0 ∧ t.draws = s.draws + 1 ∧
    t.pc = s.pc + 2 ∧ KeepsExcept [.draws] [x] s t

/-! Address register and memory -/

/-- O46, R110 and R112: `LD I,NNN` and `LD F,VX`; VX is not masked to its low nibble (D27, log 18). -/
def Obligations.LoadsOfI : Prop :=
  ∀ (nnn : Word) (x : Reg) (s : State),
    (∃ t, exec (.ldI nnn) s = .next t ∧ t.iReg = nnn ∧ t.pc = s.pc + 2 ∧ KeepsExcept [.iReg] [] s t) ∧
    ∃ t, exec (.ldF x) s = .next t ∧ t.iReg.toNat = (s.reg x).toNat * 5 ∧ t.pc = s.pc + 2 ∧
      KeepsExcept [.iReg] [] s t

/-- O47, R111: `ADD I,VX`: never masked to 12 bits; the fault past 16 bits is D14 (log 16). -/
def Obligations.AddToI : Prop :=
  ∀ (x : Reg) (s : State),
    (s.iReg.toNat + (s.reg x).toNat ≤ 0xFFFF → ∃ t, exec (.addI x) s = .next t ∧
      t.iReg.toNat = s.iReg.toNat + (s.reg x).toNat ∧ t.pc = s.pc + 2 ∧ KeepsExcept [.iReg] [] s t) ∧
    (0xFFFF < s.iReg.toNat + (s.reg x).toNat → exec (.addI x) s = .fault .indexOverflow)

/-- O48, R113: `LD B,VX`: the three digits as whole bytes at I, I + 1, I + 2; all of it or the fault of the first
address above 4095 (D5, log 9). -/
def Obligations.BcdStore : Prop :=
  ∀ (x : Reg) (s : State),
    (s.iReg.toNat + 2 ≤ 4095 → ∃ t, exec (.ldB x) s = .next t ∧
      t.readByte s.iReg.toNat = .ok (BitVec.ofNat 8 ((s.reg x).toNat / 100)) ∧
      t.readByte (s.iReg.toNat + 1) = .ok (BitVec.ofNat 8 ((s.reg x).toNat / 10 % 10)) ∧
      t.readByte (s.iReg.toNat + 2) = .ok (BitVec.ofNat 8 ((s.reg x).toNat % 10)) ∧
      (∀ a, a < s.iReg.toNat ∨ s.iReg.toNat + 2 < a → t.readByte a = s.readByte a) ∧
      t.pc = s.pc + 2 ∧ KeepsExcept [.memory] [] s t) ∧
    (4095 < s.iReg.toNat + 2 → exec (.ldB x) s = .fault (.addressRange (max s.iReg.toNat 4096)))

/-- O49, R114: `LD [I],VX`: V0 to VX at I to I + X; I is not changed (D28, log 18); all of it or the fault of the first
address above 4095 (D5, log 9). -/
def Obligations.BlockStore : Prop :=
  ∀ (x : Reg) (s : State),
    (s.iReg.toNat + x.val ≤ 4095 → ∃ t, exec (.storeRegs x) s = .next t ∧
      (∀ r : Reg, r ≤ x → t.readByte (s.iReg.toNat + r.val) = .ok (s.reg r)) ∧
      (∀ a, a < s.iReg.toNat ∨ s.iReg.toNat + x.val < a → t.readByte a = s.readByte a) ∧
      t.pc = s.pc + 2 ∧ KeepsExcept [.memory] [] s t) ∧
    (4095 < s.iReg.toNat + x.val → exec (.storeRegs x) s = .fault (.addressRange (max s.iReg.toNat 4096)))

/-- O50, R115: `LD VX,[I]`: V0 to VX from I to I + X, VF like any register; I and memory are not changed (D28, log 18);
all of it or the fault of the first address above 4095 (D5, log 9). -/
def Obligations.BlockLoad : Prop :=
  ∀ (x : Reg) (s : State),
    (s.iReg.toNat + x.val ≤ 4095 → ∃ t, exec (.loadRegs x) s = .next t ∧
      (∀ r : Reg, r ≤ x → s.readByte (s.iReg.toNat + r.val) = .ok (t.reg r)) ∧ (∀ r : Reg, x < r → t.reg r = s.reg r) ∧
      t.pc = s.pc + 2 ∧ KeepsExcept [] (List.finRange 16) s t) ∧
    (4095 < s.iReg.toNat + x.val → exec (.loadRegs x) s = .fault (.addressRange (max s.iReg.toNat 4096)))

/-! Display -/

/-- O51, R120: `CLS` clears every pixel; VF is not written. -/
def Obligations.ClearScreen : Prop :=
  ∀ s : State, ∃ t, exec .cls s = .next t ∧ (∀ y x, t.disp.pixel y x = false) ∧ t.pc = s.pc + 2 ∧
    KeepsExcept [.display] [] s t

/-- O52, R121 and R122: `DRW`: pixels under 1 bits toggle, all others stay, VF says whether a set pixel was cleared,
also for N = 0; coordinates and bytes are read before anything is written, VF as a coordinate too (D10, log 13); all of
it or the fault of the first address above 4095 (D5, log 9). -/
def Obligations.DrawSprite : Prop :=
  ∀ (x y : Reg) (n : Fin 16) (s : State),
    (n.val = 0 ∨ s.iReg.toNat + n.val ≤ 4096 → ∃ t, exec (.drw x y n) s = .next t ∧
      (∀ py px, UnderSprite s (s.reg x).toNat (s.reg y).toNat n.val py px →
        t.disp.pixel py px = !(s.disp.pixel py px)) ∧
      (∀ py px, ¬ UnderSprite s (s.reg x).toNat (s.reg y).toNat n.val py px →
        t.disp.pixel py px = s.disp.pixel py px) ∧
      ((∃ py px, UnderSprite s (s.reg x).toNat (s.reg y).toNat n.val py px ∧ s.disp.pixel py px = true) →
        t.reg vf = 1) ∧
      ((∀ py px, UnderSprite s (s.reg x).toNat (s.reg y).toNat n.val py px → s.disp.pixel py px = false) →
        t.reg vf = 0) ∧
      t.pc = s.pc + 2 ∧ KeepsExcept [.display] [vf] s t) ∧
    (n.val ≠ 0 → 4096 < s.iReg.toNat + n.val →
      exec (.drw x y n) s = .fault (.addressRange (max s.iReg.toNat 4096)))

/-- O53, R121's worked example as a law: the same sprite drawn again at the same place gives the display back, and VF is
1 if the second drawing clears a pixel. -/
def Obligations.DrawTwiceRestores : Prop :=
  ∀ (x y : Reg) (n : Fin 16) (s t : State), x ≠ vf → y ≠ vf → exec (.drw x y n) s = .next t →
    ∃ u, exec (.drw x y n) t = .next u ∧ (∀ py px, u.disp.pixel py px = s.disp.pixel py px) ∧
      (u.reg vf = 1 ↔ ∃ py px, UnderSprite s (s.reg x).toNat (s.reg y).toNat n.val py px ∧ s.disp.pixel py px = false)

/-! Keypad and timers -/

/-- O54, R130 and R131: `SKP` and `SKNP` on the key numbered by VX; the fault above 15 is D11 (log 14). -/
def Obligations.SkipsOnKeys : Prop :=
  ∀ (x : Reg) (s : State),
    (∀ k : Reg, k.val = (s.reg x).toNat →
      (∃ t, exec (.skp x) s = .next t ∧ KeepsExcept [] [] s t ∧
        (s.key k = true → t.pc = s.pc + 4) ∧ (s.key k = false → t.pc = s.pc + 2)) ∧
      ∃ t, exec (.sknp x) s = .next t ∧ KeepsExcept [] [] s t ∧
        (s.key k = false → t.pc = s.pc + 4) ∧ (s.key k = true → t.pc = s.pc + 2)) ∧
    (15 < (s.reg x).toNat → exec (.skp x) s = .fault (.keyRange (s.reg x)) ∧
      exec (.sknp x) s = .fault (.keyRange (s.reg x)))

/-- O55, R132, R134 and R135: the handlers of the timer instructions, before the step's tick. -/
def Obligations.TimerInstructions : Prop :=
  ∀ (x : Reg) (s : State),
    (∃ t, exec (.ldVxDt x) s = .next t ∧ t.reg x = s.dt ∧ t.pc = s.pc + 2 ∧ KeepsExcept [] [x] s t) ∧
    (∃ t, exec (.ldDtVx x) s = .next t ∧ t.dt = s.reg x ∧ t.pc = s.pc + 2 ∧ KeepsExcept [.delay] [] s t) ∧
    ∃ t, exec (.ldStVx x) s = .next t ∧ t.st = s.reg x ∧ t.pc = s.pc + 2 ∧ KeepsExcept [.sound] [] s t

/-- O56, R133: `LD VX,K`: with a key pressed VX is the highest pressed index (D12, log 15); with none the step completes
and PC stays; no key flag changes (D13, log 15). -/
def Obligations.KeyWait : Prop :=
  ∀ (x : Reg) (s : State),
    (∀ k : Reg, s.key k = true → (∀ j, k < j → s.key j = false) → ∃ t, exec (.ldVxK x) s = .next t ∧
      (t.reg x).toNat = k.val ∧ t.pc = s.pc + 2 ∧ KeepsExcept [] [x] s t) ∧
    ((∀ k, s.key k = false) → ∃ t, exec (.ldVxK x) s = .next t ∧ t.pc = s.pc ∧ KeepsExcept [] [] s t)
end

