-- ==== Sys2Proof/Laws/Decode.lean ====
section
/-! SUPPORT. The fields of a word as numbers, the fields of the words the encoder builds, and what a mask of
spec/opcode_table.json says of the fields. -/

namespace Sys2Proof

/-! The fields as numbers (R52) -/

theorem family_toNat (w : Word) : (family w).toNat = w.toNat / 4096 := by
  have := w.isLt
  simp only [family, BitVec.extractLsb'_toNat, Nat.shiftRight_eq_div_pow]
  omega

theorem fieldX_val (w : Word) : (fieldX w).val = w.toNat / 256 % 16 := by
  simp [fieldX, Nat.shiftRight_eq_div_pow]

theorem fieldY_val (w : Word) : (fieldY w).val = w.toNat / 16 % 16 := by
  simp [fieldY, Nat.shiftRight_eq_div_pow]

theorem lowNibble_toNat (w : Word) : (lowNibble w).toNat = w.toNat % 16 := by
  simp [lowNibble]

theorem fieldN_val (w : Word) : (fieldN w).val = w.toNat % 16 := by
  simp [fieldN, lowNibble]

theorem fieldNN_toNat (w : Word) : (fieldNN w).toNat = w.toNat % 256 := by
  simp [fieldNN]

theorem fieldNNN_toNat (w : Word) : (fieldNNN w).toNat = w.toNat % 4096 := by
  simp [fieldNNN]
  omega

/-! The words the encoder builds, as numbers (R51) -/

theorem shiftLeft_or {a b n : Nat} (h : b < 2 ^ n) : a <<< n ||| b = a * 2 ^ n + b := by
  rw [← Nat.shiftLeft_add_eq_or_of_lt h, Nat.shiftLeft_eq]

theorem wordXNN_toNat (f x : BitVec 4) (nn : Byte) :
    (wordXNN f x nn).toNat = f.toNat * 4096 + x.toNat * 256 + nn.toNat := by
  unfold wordXNN
  rw [BitVec.toNat_append, BitVec.toNat_append, shiftLeft_or x.isLt, shiftLeft_or nn.isLt]
  omega

theorem wordOfNibbles_toNat (f a b c : BitVec 4) :
    (wordOfNibbles f a b c).toNat = f.toNat * 4096 + a.toNat * 256 + b.toNat * 16 + c.toNat := by
  unfold wordOfNibbles
  rw [BitVec.toNat_append, BitVec.toNat_append, BitVec.toNat_append, shiftLeft_or a.isLt, shiftLeft_or b.isLt,
    shiftLeft_or c.isLt]
  omega

theorem wordNNN_toNat (f : BitVec 4) (nnn : Word) :
    (wordNNN f nnn).toNat = f.toNat * 4096 + nnn.toNat % 4096 := by
  unfold wordNNN
  rw [BitVec.toNat_append, shiftLeft_or (BitVec.isLt _)]
  simp

theorem wordOfBytes_toNat (hi lo : Byte) : (wordOfBytes hi lo).toNat = hi.toNat * 256 + lo.toNat := by
  unfold wordOfBytes
  rw [BitVec.toNat_append, shiftLeft_or lo.isLt]
  rfl

/-- A word is the big-endian pair of its two bytes (R35). -/
@[simp] theorem wordOfBytes_bytes (w : Word) : wordOfBytes (highByte w) (lowByte w) = w := by
  apply BitVec.eq_of_toNat_eq
  have := w.isLt
  rw [wordOfBytes_toNat]
  simp only [highByte, lowByte, BitVec.extractLsb'_toNat, Nat.shiftRight_eq_div_pow]
  omega

@[simp] theorem nibbleOf_toNat (x : Fin 16) : (nibbleOf x).toNat = x.val := rfl

/-! The fields of the words the encoder builds -/

@[simp] theorem family_wordXNN (f x : BitVec 4) (nn : Byte) : family (wordXNN f x nn) = f := by
  apply BitVec.eq_of_toNat_eq
  have := x.isLt
  have := nn.isLt
  rw [family_toNat, wordXNN_toNat]
  omega

@[simp] theorem fieldX_wordXNN (f : BitVec 4) (x : Fin 16) (nn : Byte) : fieldX (wordXNN f (nibbleOf x) nn) = x := by
  apply Fin.ext
  have := x.isLt
  have := nn.isLt
  rw [fieldX_val, wordXNN_toNat, nibbleOf_toNat]
  omega

@[simp] theorem fieldNN_wordXNN (f x : BitVec 4) (nn : Byte) : fieldNN (wordXNN f x nn) = nn := by
  apply BitVec.eq_of_toNat_eq
  have := nn.isLt
  rw [fieldNN_toNat, wordXNN_toNat]
  omega

@[simp] theorem family_wordOfNibbles (f a b c : BitVec 4) : family (wordOfNibbles f a b c) = f := by
  apply BitVec.eq_of_toNat_eq
  have := a.isLt
  have := b.isLt
  have := c.isLt
  rw [family_toNat, wordOfNibbles_toNat]
  omega

@[simp] theorem fieldX_wordOfNibbles (f : BitVec 4) (x : Fin 16) (b c : BitVec 4) :
    fieldX (wordOfNibbles f (nibbleOf x) b c) = x := by
  apply Fin.ext
  have := x.isLt
  have := b.isLt
  have := c.isLt
  rw [fieldX_val, wordOfNibbles_toNat, nibbleOf_toNat]
  omega

@[simp] theorem fieldY_wordOfNibbles (f a : BitVec 4) (y : Fin 16) (c : BitVec 4) :
    fieldY (wordOfNibbles f a (nibbleOf y) c) = y := by
  apply Fin.ext
  have := y.isLt
  have := c.isLt
  rw [fieldY_val, wordOfNibbles_toNat, nibbleOf_toNat]
  omega

@[simp] theorem lowNibble_wordOfNibbles (f a b c : BitVec 4) : lowNibble (wordOfNibbles f a b c) = c := by
  apply BitVec.eq_of_toNat_eq
  have := c.isLt
  rw [lowNibble_toNat, wordOfNibbles_toNat]
  omega

@[simp] theorem fieldN_wordOfNibbles (f a b : BitVec 4) (n : Fin 16) :
    fieldN (wordOfNibbles f a b (nibbleOf n)) = n := by
  rw [fieldN, lowNibble_wordOfNibbles]
  rfl

@[simp] theorem family_wordNNN (f : BitVec 4) (nnn : Word) : family (wordNNN f nnn) = f := by
  apply BitVec.eq_of_toNat_eq
  rw [family_toNat, wordNNN_toNat]
  omega

theorem fieldNNN_wordNNN (f : BitVec 4) {nnn : Word} (h : fits12 nnn = true) : fieldNNN (wordNNN f nnn) = nnn := by
  apply BitVec.eq_of_toNat_eq
  have h : nnn.toNat < 4096 := by simpa [fits12] using h
  rw [fieldNNN_toNat, wordNNN_toNat]
  omega

/-! A word is put together again from its fields -/

theorem wordXNN_fields {w : Word} {f : BitVec 4} {nn : Byte} (h : family w = f) (hn : fieldNN w = nn) :
    wordXNN f (nibbleOf (fieldX w)) nn = w := by
  apply BitVec.eq_of_toNat_eq
  rw [wordXNN_toNat, ← h, ← hn, family_toNat, nibbleOf_toNat, fieldX_val, fieldNN_toNat]
  omega

theorem wordNNN_fields {w : Word} {f : BitVec 4} (h : family w = f) : wordNNN f (fieldNNN w) = w := by
  apply BitVec.eq_of_toNat_eq
  rw [wordNNN_toNat, ← h, family_toNat, fieldNNN_toNat]
  omega

theorem wordOfNibbles_fields {w : Word} {f c : BitVec 4} (h : family w = f) (hc : lowNibble w = c) :
    wordOfNibbles f (nibbleOf (fieldX w)) (nibbleOf (fieldY w)) c = w := by
  apply BitVec.eq_of_toNat_eq
  rw [wordOfNibbles_toNat, ← h, ← hc, family_toNat, nibbleOf_toNat, fieldX_val, nibbleOf_toNat, fieldY_val,
    lowNibble_toNat]
  omega

/-- The address field of any word fits 12 bits (R52). -/
theorem fits12_fieldNNN (w : Word) : fits12 (fieldNNN w) = true := by
  simp only [fits12, fieldNNN_toNat, decide_eq_true_eq]
  omega

/-! What the masks of the opcode table say of the fields -/

theorem family_of_mask {w m : Word} (h : w &&& 0xF000 = m) : family w = m.extractLsb' 12 4 := by
  rw [← h, BitVec.extractLsb'_and]
  exact (BitVec.and_allOnes (x := family w)).symm

theorem fields_of_mask_F00F {w m : Word} (h : w &&& 0xF00F = m) :
    family w = m.extractLsb' 12 4 ∧ lowNibble w = m.extractLsb' 0 4 := by
  rw [← h, BitVec.extractLsb'_and, BitVec.extractLsb'_and]
  exact ⟨(BitVec.and_allOnes (x := family w)).symm, (BitVec.and_allOnes (x := lowNibble w)).symm⟩

theorem fields_of_mask_F0FF {w m : Word} (h : w &&& 0xF0FF = m) :
    family w = m.extractLsb' 12 4 ∧ fieldNN w = m.extractLsb' 0 8 := by
  rw [← h, BitVec.extractLsb'_and, BitVec.extractLsb'_and]
  exact ⟨(BitVec.and_allOnes (x := family w)).symm, (BitVec.and_allOnes (x := fieldNN w)).symm⟩

/-! The decoder inside a two-level family -/

theorem decode_family0 {w : Word} (h : family w = 0x0) : decode w = decode0 w := by
  unfold decode
  rw [h]
  rfl

theorem decode_family8 {w : Word} (h : family w = 0x8) : decode w = decode8 w := by
  unfold decode
  rw [h]
  rfl

theorem decode_familyE {w : Word} (h : family w = 0xE) : decode w = decodeE w := by
  unfold decode
  rw [h]
  rfl

theorem decode_familyF {w : Word} (h : family w = 0xF) : decode w = decodeF w := by
  unfold decode
  rw [h]
  rfl

/-- The sixteen families (R53). -/
theorem nibble_cases (f : BitVec 4) : f = 0x0 ∨ f = 0x1 ∨ f = 0x2 ∨ f = 0x3 ∨ f = 0x4 ∨ f = 0x5 ∨ f = 0x6 ∨ f = 0x7
    ∨ f = 0x8 ∨ f = 0x9 ∨ f = 0xA ∨ f = 0xB ∨ f = 0xC ∨ f = 0xD ∨ f = 0xE ∨ f = 0xF := by
  revert f
  decide

end Sys2Proof
end

