-- ==== Sys2Proof/Laws/State.lean ====
section
/-! SUPPORT. What each update of the state does to each field, and to each reader of the state (one lemma per field per
update, true by rfl), so that no later proof unfolds a record update. -/

namespace Sys2Proof.Machine

/-! `State.setReg` -/

@[simp] theorem State.setReg_regs (s : State) (r : Reg) (v : Byte) : (s.setReg r v).regs = s.regs.set r v := rfl
@[simp] theorem State.setReg_iReg (s : State) (r : Reg) (v : Byte) : (s.setReg r v).iReg = s.iReg := rfl
@[simp] theorem State.setReg_pc (s : State) (r : Reg) (v : Byte) : (s.setReg r v).pc = s.pc := rfl
@[simp] theorem State.setReg_stack (s : State) (r : Reg) (v : Byte) : (s.setReg r v).stack = s.stack := rfl
@[simp] theorem State.setReg_dt (s : State) (r : Reg) (v : Byte) : (s.setReg r v).dt = s.dt := rfl
@[simp] theorem State.setReg_st (s : State) (r : Reg) (v : Byte) : (s.setReg r v).st = s.st := rfl
@[simp] theorem State.setReg_mem (s : State) (r : Reg) (v : Byte) : (s.setReg r v).mem = s.mem := rfl
@[simp] theorem State.setReg_disp (s : State) (r : Reg) (v : Byte) : (s.setReg r v).disp = s.disp := rfl
@[simp] theorem State.setReg_keys (s : State) (r : Reg) (v : Byte) : (s.setReg r v).keys = s.keys := rfl
@[simp] theorem State.setReg_draws (s : State) (r : Reg) (v : Byte) : (s.setReg r v).draws = s.draws := rfl
@[simp] theorem State.setReg_key (s : State) (r : Reg) (v : Byte) (q : Reg) : (s.setReg r v).key q = s.key q := rfl
@[simp] theorem State.setReg_readByte (s : State) (r : Reg) (v : Byte) (q : Nat) : (s.setReg r v).readByte q = s.readByte q := rfl

/-! `State.setFlag` -/

@[simp] theorem State.setFlag_regs (s : State) (v : Byte) : (s.setFlag v).regs = s.regs.set vf v := rfl
@[simp] theorem State.setFlag_iReg (s : State) (v : Byte) : (s.setFlag v).iReg = s.iReg := rfl
@[simp] theorem State.setFlag_pc (s : State) (v : Byte) : (s.setFlag v).pc = s.pc := rfl
@[simp] theorem State.setFlag_stack (s : State) (v : Byte) : (s.setFlag v).stack = s.stack := rfl
@[simp] theorem State.setFlag_dt (s : State) (v : Byte) : (s.setFlag v).dt = s.dt := rfl
@[simp] theorem State.setFlag_st (s : State) (v : Byte) : (s.setFlag v).st = s.st := rfl
@[simp] theorem State.setFlag_mem (s : State) (v : Byte) : (s.setFlag v).mem = s.mem := rfl
@[simp] theorem State.setFlag_disp (s : State) (v : Byte) : (s.setFlag v).disp = s.disp := rfl
@[simp] theorem State.setFlag_keys (s : State) (v : Byte) : (s.setFlag v).keys = s.keys := rfl
@[simp] theorem State.setFlag_draws (s : State) (v : Byte) : (s.setFlag v).draws = s.draws := rfl
@[simp] theorem State.setFlag_key (s : State) (v : Byte) (q : Reg) : (s.setFlag v).key q = s.key q := rfl
@[simp] theorem State.setFlag_readByte (s : State) (v : Byte) (q : Nat) : (s.setFlag v).readByte q = s.readByte q := rfl

/-! `State.setI` -/

@[simp] theorem State.setI_regs (s : State) (v : Word) : (s.setI v).regs = s.regs := rfl
@[simp] theorem State.setI_iReg (s : State) (v : Word) : (s.setI v).iReg = v := rfl
@[simp] theorem State.setI_pc (s : State) (v : Word) : (s.setI v).pc = s.pc := rfl
@[simp] theorem State.setI_stack (s : State) (v : Word) : (s.setI v).stack = s.stack := rfl
@[simp] theorem State.setI_dt (s : State) (v : Word) : (s.setI v).dt = s.dt := rfl
@[simp] theorem State.setI_st (s : State) (v : Word) : (s.setI v).st = s.st := rfl
@[simp] theorem State.setI_mem (s : State) (v : Word) : (s.setI v).mem = s.mem := rfl
@[simp] theorem State.setI_disp (s : State) (v : Word) : (s.setI v).disp = s.disp := rfl
@[simp] theorem State.setI_keys (s : State) (v : Word) : (s.setI v).keys = s.keys := rfl
@[simp] theorem State.setI_draws (s : State) (v : Word) : (s.setI v).draws = s.draws := rfl
@[simp] theorem State.setI_reg (s : State) (v : Word) (q : Reg) : (s.setI v).reg q = s.reg q := rfl
@[simp] theorem State.setI_key (s : State) (v : Word) (q : Reg) : (s.setI v).key q = s.key q := rfl
@[simp] theorem State.setI_readByte (s : State) (v : Word) (q : Nat) : (s.setI v).readByte q = s.readByte q := rfl

/-! `State.jump` -/

@[simp] theorem State.jump_regs (s : State) (a : Word) : (s.jump a).regs = s.regs := rfl
@[simp] theorem State.jump_iReg (s : State) (a : Word) : (s.jump a).iReg = s.iReg := rfl
@[simp] theorem State.jump_pc (s : State) (a : Word) : (s.jump a).pc = a := rfl
@[simp] theorem State.jump_stack (s : State) (a : Word) : (s.jump a).stack = s.stack := rfl
@[simp] theorem State.jump_dt (s : State) (a : Word) : (s.jump a).dt = s.dt := rfl
@[simp] theorem State.jump_st (s : State) (a : Word) : (s.jump a).st = s.st := rfl
@[simp] theorem State.jump_mem (s : State) (a : Word) : (s.jump a).mem = s.mem := rfl
@[simp] theorem State.jump_disp (s : State) (a : Word) : (s.jump a).disp = s.disp := rfl
@[simp] theorem State.jump_keys (s : State) (a : Word) : (s.jump a).keys = s.keys := rfl
@[simp] theorem State.jump_draws (s : State) (a : Word) : (s.jump a).draws = s.draws := rfl
@[simp] theorem State.jump_reg (s : State) (a : Word) (q : Reg) : (s.jump a).reg q = s.reg q := rfl
@[simp] theorem State.jump_key (s : State) (a : Word) (q : Reg) : (s.jump a).key q = s.key q := rfl
@[simp] theorem State.jump_readByte (s : State) (a : Word) (q : Nat) : (s.jump a).readByte q = s.readByte q := rfl

/-! `State.advance` -/

@[simp] theorem State.advance_regs (s : State) (k : Word) : (s.advance k).regs = s.regs := rfl
@[simp] theorem State.advance_iReg (s : State) (k : Word) : (s.advance k).iReg = s.iReg := rfl
@[simp] theorem State.advance_pc (s : State) (k : Word) : (s.advance k).pc = s.pc + k := rfl
@[simp] theorem State.advance_stack (s : State) (k : Word) : (s.advance k).stack = s.stack := rfl
@[simp] theorem State.advance_dt (s : State) (k : Word) : (s.advance k).dt = s.dt := rfl
@[simp] theorem State.advance_st (s : State) (k : Word) : (s.advance k).st = s.st := rfl
@[simp] theorem State.advance_mem (s : State) (k : Word) : (s.advance k).mem = s.mem := rfl
@[simp] theorem State.advance_disp (s : State) (k : Word) : (s.advance k).disp = s.disp := rfl
@[simp] theorem State.advance_keys (s : State) (k : Word) : (s.advance k).keys = s.keys := rfl
@[simp] theorem State.advance_draws (s : State) (k : Word) : (s.advance k).draws = s.draws := rfl
@[simp] theorem State.advance_reg (s : State) (k : Word) (q : Reg) : (s.advance k).reg q = s.reg q := rfl
@[simp] theorem State.advance_key (s : State) (k : Word) (q : Reg) : (s.advance k).key q = s.key q := rfl
@[simp] theorem State.advance_readByte (s : State) (k : Word) (q : Nat) : (s.advance k).readByte q = s.readByte q := rfl

/-! `State.setDisplay` -/

@[simp] theorem State.setDisplay_regs (s : State) (d : Display) : (s.setDisplay d).regs = s.regs := rfl
@[simp] theorem State.setDisplay_iReg (s : State) (d : Display) : (s.setDisplay d).iReg = s.iReg := rfl
@[simp] theorem State.setDisplay_pc (s : State) (d : Display) : (s.setDisplay d).pc = s.pc := rfl
@[simp] theorem State.setDisplay_stack (s : State) (d : Display) : (s.setDisplay d).stack = s.stack := rfl
@[simp] theorem State.setDisplay_dt (s : State) (d : Display) : (s.setDisplay d).dt = s.dt := rfl
@[simp] theorem State.setDisplay_st (s : State) (d : Display) : (s.setDisplay d).st = s.st := rfl
@[simp] theorem State.setDisplay_mem (s : State) (d : Display) : (s.setDisplay d).mem = s.mem := rfl
@[simp] theorem State.setDisplay_disp (s : State) (d : Display) : (s.setDisplay d).disp = d := rfl
@[simp] theorem State.setDisplay_keys (s : State) (d : Display) : (s.setDisplay d).keys = s.keys := rfl
@[simp] theorem State.setDisplay_draws (s : State) (d : Display) : (s.setDisplay d).draws = s.draws := rfl
@[simp] theorem State.setDisplay_reg (s : State) (d : Display) (q : Reg) : (s.setDisplay d).reg q = s.reg q := rfl
@[simp] theorem State.setDisplay_key (s : State) (d : Display) (q : Reg) : (s.setDisplay d).key q = s.key q := rfl
@[simp] theorem State.setDisplay_readByte (s : State) (d : Display) (q : Nat) : (s.setDisplay d).readByte q = s.readByte q := rfl

/-! `State.setKey` -/

@[simp] theorem State.setKey_regs (s : State) (k : Reg) (b : Bool) : (s.setKey k b).regs = s.regs := rfl
@[simp] theorem State.setKey_iReg (s : State) (k : Reg) (b : Bool) : (s.setKey k b).iReg = s.iReg := rfl
@[simp] theorem State.setKey_pc (s : State) (k : Reg) (b : Bool) : (s.setKey k b).pc = s.pc := rfl
@[simp] theorem State.setKey_stack (s : State) (k : Reg) (b : Bool) : (s.setKey k b).stack = s.stack := rfl
@[simp] theorem State.setKey_dt (s : State) (k : Reg) (b : Bool) : (s.setKey k b).dt = s.dt := rfl
@[simp] theorem State.setKey_st (s : State) (k : Reg) (b : Bool) : (s.setKey k b).st = s.st := rfl
@[simp] theorem State.setKey_mem (s : State) (k : Reg) (b : Bool) : (s.setKey k b).mem = s.mem := rfl
@[simp] theorem State.setKey_disp (s : State) (k : Reg) (b : Bool) : (s.setKey k b).disp = s.disp := rfl
@[simp] theorem State.setKey_keys (s : State) (k : Reg) (b : Bool) : (s.setKey k b).keys = s.keys.set k b := rfl
@[simp] theorem State.setKey_draws (s : State) (k : Reg) (b : Bool) : (s.setKey k b).draws = s.draws := rfl
@[simp] theorem State.setKey_reg (s : State) (k : Reg) (b : Bool) (q : Reg) : (s.setKey k b).reg q = s.reg q := rfl
@[simp] theorem State.setKey_readByte (s : State) (k : Reg) (b : Bool) (q : Nat) : (s.setKey k b).readByte q = s.readByte q := rfl

/-! `State.countDraw` -/

@[simp] theorem State.countDraw_regs (s : State) : (s.countDraw).regs = s.regs := rfl
@[simp] theorem State.countDraw_iReg (s : State) : (s.countDraw).iReg = s.iReg := rfl
@[simp] theorem State.countDraw_pc (s : State) : (s.countDraw).pc = s.pc := rfl
@[simp] theorem State.countDraw_stack (s : State) : (s.countDraw).stack = s.stack := rfl
@[simp] theorem State.countDraw_dt (s : State) : (s.countDraw).dt = s.dt := rfl
@[simp] theorem State.countDraw_st (s : State) : (s.countDraw).st = s.st := rfl
@[simp] theorem State.countDraw_mem (s : State) : (s.countDraw).mem = s.mem := rfl
@[simp] theorem State.countDraw_disp (s : State) : (s.countDraw).disp = s.disp := rfl
@[simp] theorem State.countDraw_keys (s : State) : (s.countDraw).keys = s.keys := rfl
@[simp] theorem State.countDraw_draws (s : State) : (s.countDraw).draws = s.draws + 1 := rfl
@[simp] theorem State.countDraw_reg (s : State) (q : Reg) : (s.countDraw).reg q = s.reg q := rfl
@[simp] theorem State.countDraw_key (s : State) (q : Reg) : (s.countDraw).key q = s.key q := rfl
@[simp] theorem State.countDraw_readByte (s : State) (q : Nat) : (s.countDraw).readByte q = s.readByte q := rfl

/-! `State.tick` -/

@[simp] theorem State.tick_regs (s : State) : (s.tick).regs = s.regs := rfl
@[simp] theorem State.tick_iReg (s : State) : (s.tick).iReg = s.iReg := rfl
@[simp] theorem State.tick_pc (s : State) : (s.tick).pc = s.pc := rfl
@[simp] theorem State.tick_stack (s : State) : (s.tick).stack = s.stack := rfl
@[simp] theorem State.tick_dt (s : State) : (s.tick).dt = tickTimer s.dt := rfl
@[simp] theorem State.tick_st (s : State) : (s.tick).st = tickTimer s.st := rfl
@[simp] theorem State.tick_mem (s : State) : (s.tick).mem = s.mem := rfl
@[simp] theorem State.tick_disp (s : State) : (s.tick).disp = s.disp := rfl
@[simp] theorem State.tick_keys (s : State) : (s.tick).keys = s.keys := rfl
@[simp] theorem State.tick_draws (s : State) : (s.tick).draws = s.draws := rfl
@[simp] theorem State.tick_reg (s : State) (q : Reg) : (s.tick).reg q = s.reg q := rfl
@[simp] theorem State.tick_key (s : State) (q : Reg) : (s.tick).key q = s.key q := rfl
@[simp] theorem State.tick_readByte (s : State) (q : Nat) : (s.tick).readByte q = s.readByte q := rfl

/-! Reading back a register, a key. -/

theorem State.setReg_reg (s : State) (r : Reg) (v : Byte) (q : Reg) :
    (s.setReg r v).reg q = if q = r then v else s.reg q := by
  simp only [State.reg, State.setReg, Vector.get_eq_getElem, Vector.getElem_set, Fin.ext_iff, eq_comm]

@[simp] theorem State.setReg_reg_same (s : State) (r : Reg) (v : Byte) : (s.setReg r v).reg r = v := by
  rw [State.setReg_reg, if_pos rfl]

@[simp] theorem State.setReg_reg_ne (s : State) (r : Reg) (v : Byte) (q : Reg) (h : q ≠ r) :
    (s.setReg r v).reg q = s.reg q := by
  rw [State.setReg_reg, if_neg h]

theorem State.setFlag_reg (s : State) (v : Byte) (q : Reg) : (s.setFlag v).reg q = if q = vf then v else s.reg q :=
  State.setReg_reg s vf v q

@[simp] theorem State.setFlag_reg_vf (s : State) (v : Byte) : (s.setFlag v).reg vf = v :=
  State.setReg_reg_same s vf v

theorem State.setKey_key (s : State) (k : Reg) (b : Bool) (q : Reg) :
    (s.setKey k b).key q = if q = k then b else s.key q := by
  simp only [State.key, State.setKey, Vector.get_eq_getElem, Vector.getElem_set, Fin.ext_iff, eq_comm]

/-! Two states with the same memory read the same bytes. -/

theorem State.readByte_congr {s t : State} (h : t.mem = s.mem) (a : Nat) : t.readByte a = s.readByte a := by
  simp only [State.readByte, h]

/-! How a handler ends. -/

@[simp] theorem State.done_eq (s : State) : s.done = .next (s.advance 2) := rfl

@[simp] theorem State.skipIf_eq (s : State) (c : Bool) : s.skipIf c = .next (s.advance (if c then 4 else 2)) := rfl

@[simp] theorem attempt_ok {α : Type} (a : α) (k : α → Result) : attempt (.ok a) k = k a := rfl

@[simp] theorem attempt_error {α : Type} (f : Fault) (k : α → Result) : attempt (.error f) k = .fault f := rfl

@[simp] theorem retire_next (s : State) : retire (.next s) = .next s.tick := rfl

@[simp] theorem retire_fault (f : Fault) : retire (.fault f) = .fault f := rfl

@[simp] theorem retire_refused (r : Refusal) : retire (.refused r) = .refused r := rfl

end Sys2Proof.Machine
end

