-- ==== Sys2Proof/Laws/Memory.lean ====
section
/-! SUPPORT. The laws of the memory: a read after a write, that every operation keeps the canonical form, and that
memories in canonical form that read the same are equal. -/

namespace Sys2Proof.Machine

@[simp] theorem Memory.get_nil (a : Nat) : Memory.get [] a = initialByte a := rfl

theorem Memory.get_cons (c : Host.Cell) (m : Memory) (a : Nat) :
    Memory.get (c :: m) a = if c.1 = a then c.2 else Memory.get m a := rfl

theorem Memory.get_of_not_mem {m : Memory} {a : Nat} (h : ∀ c ∈ m, c.1 ≠ a) : m.get a = initialByte a := by
  induction m with
  | nil => rfl
  | cons c m ih =>
    rw [Memory.get_cons, if_neg (h c (by simp)), ih fun d hd => h d (by simp [hd])]

theorem Memory.not_mem_erase (m : Memory) (a : Nat) : ∀ c ∈ m.erase a, c.1 ≠ a := by
  intro c hc
  simpa using (List.mem_filter.mp hc).2

theorem Memory.get_erase_ne (m : Memory) {a b : Nat} (h : b ≠ a) : (m.erase a).get b = m.get b := by
  induction m with
  | nil => rfl
  | cons c m ih =>
    by_cases hc : c.1 = a
    · have : Memory.erase (c :: m) a = Memory.erase m a := by simp [Memory.erase, hc]
      rw [this, ih, Memory.get_cons, if_neg (by omega)]
    · have : Memory.erase (c :: m) a = c :: Memory.erase m a := by simp [Memory.erase, hc]
      rw [this, Memory.get_cons, Memory.get_cons, ih]

theorem Memory.get_insert_ne (m : Memory) {a b : Nat} (v : Byte) (h : b ≠ a) : (m.insert a v).get b = m.get b := by
  induction m with
  | nil => simp [Memory.insert, Memory.get_cons, Ne.symm h]
  | cons c m ih =>
    unfold Memory.insert
    split
    · rw [Memory.get_cons, if_neg (Ne.symm h)]
    · rw [Memory.get_cons, ih, Memory.get_cons]

theorem Memory.get_insert_same {m : Memory} {a : Nat} (v : Byte) (h : ∀ c ∈ m, c.1 ≠ a) : (m.insert a v).get a = v := by
  induction m with
  | nil => simp [Memory.insert, Memory.get_cons]
  | cons c m ih =>
    unfold Memory.insert
    split
    · simp [Memory.get_cons]
    · rw [Memory.get_cons, if_neg (h c (by simp)), ih fun d hd => h d (by simp [hd])]

/-- A read after a write: the value written at that address, the old byte at every other. -/
theorem Memory.get_set (m : Memory) (a : Nat) (v : Byte) (b : Nat) :
    (m.set a v).get b = if b = a then v else m.get b := by
  by_cases h : b = a
  · subst h
    unfold Memory.set
    split
    · next hv => rw [if_pos rfl, Memory.get_of_not_mem (Memory.not_mem_erase m b), hv]
    · rw [if_pos rfl, Memory.get_insert_same v (Memory.not_mem_erase m b)]
  · unfold Memory.set
    split
    · rw [Memory.get_erase_ne m h]
    · rw [Memory.get_insert_ne _ v h, Memory.get_erase_ne m h]

/-- A read after a block of bytes was written. -/
theorem Memory.get_setBytes (m : Memory) (a : Nat) (vs : List Byte) (b : Nat) :
    (m.setBytes a vs).get b = if a ≤ b ∧ b < a + vs.length then vs.getD (b - a) 0 else m.get b := by
  induction vs generalizing m a with
  | nil =>
    have h : ¬ (a ≤ b ∧ b < a) := by omega
    simp [Memory.setBytes, h]
  | cons v vs ih =>
    rw [Memory.setBytes, ih, Memory.get_set, List.length_cons]
    by_cases hb : b = a
    · have h1 : ¬ (a + 1 ≤ b ∧ b < a + 1 + vs.length) := by omega
      have h2 : a ≤ b ∧ b < a + (vs.length + 1) := by omega
      simp [hb]
    · by_cases h : a + 1 ≤ b ∧ b < a + 1 + vs.length
      · have h2 : a ≤ b ∧ b < a + (vs.length + 1) := by omega
        obtain ⟨k, hk⟩ : ∃ k, b - a = k + 1 := ⟨b - a - 1, by omega⟩
        have hk' : b - (a + 1) = k := by omega
        rw [if_pos h, if_pos h2, hk, hk', List.getD_cons_succ]
      · have h2 : ¬ (a ≤ b ∧ b < a + (vs.length + 1)) := by omega
        rw [if_neg h, if_neg hb, if_neg h2]

theorem Memory.mem_insert {m : Memory} {a : Nat} {v : Byte} {c : Host.Cell} :
    c ∈ m.insert a v ↔ c = (a, v) ∨ c ∈ m := by
  induction m with
  | nil => simp [Memory.insert]
  | cons d m ih =>
    unfold Memory.insert
    split
    · simp
    · rw [List.mem_cons, ih, List.mem_cons]
      tauto

theorem Memory.insert_pairwise {m : Memory} {a : Nat} (v : Byte) (h : m.Pairwise (fun c d => c.1 < d.1))
    (hne : ∀ c ∈ m, c.1 ≠ a) : (m.insert a v).Pairwise (fun c d => c.1 < d.1) := by
  induction m with
  | nil => simp [Memory.insert]
  | cons c m ih =>
    rw [List.pairwise_cons] at h
    unfold Memory.insert
    split
    · next hlt =>
      refine List.pairwise_cons.mpr ⟨fun d hd => ?_, List.pairwise_cons.mpr h⟩
      rcases List.mem_cons.mp hd with rfl | hd
      · exact hlt
      · exact Nat.lt_trans hlt (h.1 d hd)
    · next hlt =>
      refine List.pairwise_cons.mpr ⟨fun d hd => ?_, ih h.2 fun d hd => hne d (by simp [hd])⟩
      rcases Memory.mem_insert.mp hd with rfl | hd
      · have := hne c (by simp)
        simp only
        omega
      · exact h.1 d hd

theorem Memory.wf_erase {m : Memory} (h : m.wf) (a : Nat) : (m.erase a).wf :=
  ⟨h.1.filter _, fun c hc => h.2 c (List.mem_filter.mp hc).1⟩

/-- A write at an address of the memory keeps the canonical form. -/
theorem Memory.wf_set {m : Memory} (h : m.wf) {a : Nat} (ha : a < Config.memSize) (v : Byte) : (m.set a v).wf := by
  unfold Memory.set
  split
  · exact Memory.wf_erase h a
  · next hv =>
    refine ⟨Memory.insert_pairwise v (Memory.wf_erase h a).1 (Memory.not_mem_erase m a), fun c hc => ?_⟩
    rcases Memory.mem_insert.mp hc with rfl | hc
    · exact ⟨ha, hv⟩
    · exact (Memory.wf_erase h a).2 c hc

theorem Memory.wf_setBytes {m : Memory} (h : m.wf) {a : Nat} {vs : List Byte}
    (ha : a + vs.length ≤ Config.memSize) : (m.setBytes a vs).wf := by
  induction vs generalizing m a with
  | nil => exact h
  | cons v vs ih =>
    rw [List.length_cons] at ha
    exact ih (Memory.wf_set h (by omega) v) (by omega)

theorem Memory.wf_nil : Memory.wf [] := ⟨List.Pairwise.nil, by simp⟩

/-- Two memories in canonical form that read the same everywhere are the same data. -/
theorem Memory.eq_of_get_eq {m n : Memory} (hm : m.wf) (hn : n.wf) (h : ∀ a, m.get a = n.get a) : m = n := by
  have listed : ∀ {m : Memory}, m.wf → ∀ c : Host.Cell, c ∈ m ↔ m.get c.1 = c.2 ∧ c.2 ≠ initialByte c.1 := by
    intro m hm c
    induction m with
    | nil => simp [Memory.get, eq_comm]
    | cons d m ih =>
      have hp := List.pairwise_cons.mp hm.1
      have hd := hm.2 d (by simp)
      have ih := ih ⟨hp.2, fun e he => hm.2 e (by simp [he])⟩
      rw [List.mem_cons, Memory.get_cons, ih]
      by_cases hdc : d.1 = c.1
      · rw [if_pos hdc]
        have hnot : Memory.get m c.1 = initialByte c.1 :=
          Memory.get_of_not_mem fun e he => by have := hp.1 e he; omega
        rw [hnot]
        constructor
        · rintro (rfl | ⟨h1, h2⟩)
          · exact ⟨rfl, hd.2⟩
          · exact absurd h1.symm h2
        · rintro ⟨h1, -⟩
          exact .inl (Prod.ext hdc.symm h1.symm)
      · rw [if_neg hdc]
        constructor
        · rintro (rfl | h1)
          · exact absurd rfl hdc
          · exact h1
        · exact .inr
  have mem_iff : ∀ c, c ∈ m ↔ c ∈ n := fun c => by rw [listed hm, listed hn, h]
  have anti : ∀ {l : Memory}, l.wf → l.Pairwise (fun c d : Host.Cell => c.1 < d.1) := fun h => h.1
  have nodup : ∀ {l : Memory}, l.wf → l.Nodup := fun hl =>
    (anti hl).imp fun hlt heq => by rw [heq] at hlt; exact Nat.lt_irrefl _ hlt
  refine ((List.perm_ext_iff_of_nodup (nodup hm) (nodup hn)).mpr mem_iff).eq_of_pairwise
    (le := fun c d => c.1 < d.1) (fun a b _ _ h1 h2 => absurd h1 (Nat.lt_asymm h2)) hm.1 hn.1

end Sys2Proof.Machine
end

