-- ==== Sys2Proof/Laws/Ops.lean ====
section
/-! SUPPORT. One lemma for each shared operation that says all it can do: memory accesses and their one fault, the
block of registers, the stack, the key scan, a timer's tick, the fetch, and what a step is made of. -/

namespace Sys2Proof.Machine

/-! Memory accesses -/

theorem State.readByte_of_lt (s : State) {a : Nat} (h : a < 4096) : s.readByte a = .ok (s.mem.get a) := if_pos h

theorem State.readByte_of_ge (s : State) {a : Nat} (h : 4096 ≤ a) : s.readByte a = .error (.addressRange a) :=
  if_neg (Nat.not_lt.mpr h)

theorem State.readByte_ok_iff (s : State) (a : Nat) (b : Byte) :
    s.readByte a = .ok b ↔ a < 4096 ∧ s.mem.get a = b := by
  by_cases h : a < 4096
  · simp [s.readByte_of_lt h, h]
  · simp [s.readByte_of_ge (Nat.not_lt.mp h), h]

/-- The bytes of a block, or the fault of its first address above 4095. -/
theorem State.readBytes_eq (s : State) (a n : Nat) :
    s.readBytes a n = if n = 0 ∨ a + n ≤ 4096 then .ok ((List.range n).map fun k => s.mem.get (a + k))
      else .error (.addressRange (max a 4096)) := by
  induction n generalizing a with
  | zero => simp [State.readBytes]
  | succ n ih =>
    unfold State.readBytes
    by_cases ha : a < 4096
    · rw [s.readByte_of_lt ha, ih]
      by_cases h : n = 0 ∨ a + 1 + n ≤ 4096
      · have h' : n + 1 = 0 ∨ a + (n + 1) ≤ 4096 := by omega
        rw [if_pos h, if_pos h', List.range_succ_eq_map]
        simp [Nat.add_assoc, Nat.add_comm 1]
      · have h' : ¬ (n + 1 = 0 ∨ a + (n + 1) ≤ 4096) := by omega
        rw [if_neg h, if_neg h']
        have : max (a + 1) 4096 = max a 4096 := by omega
        simp [this]
    · have h' : ¬ (n + 1 = 0 ∨ a + (n + 1) ≤ 4096) := by omega
      have : max a 4096 = a := by omega
      rw [s.readByte_of_ge (Nat.not_lt.mp ha), if_neg h', this]

/-- A block of bytes is written whole, or not at all and with the fault of its first address above 4095. -/
theorem State.writeBytes_eq (s : State) (a : Nat) (vs : List Byte) :
    s.writeBytes a vs = if vs = [] ∨ a + vs.length ≤ 4096 then .ok { s with mem := s.mem.setBytes a vs }
      else .error (.addressRange (max a 4096)) := by
  induction vs generalizing s a with
  | nil => simp [State.writeBytes, Memory.setBytes]
  | cons v vs ih =>
    unfold State.writeBytes State.writeByte
    by_cases ha : a < 4096
    · rw [if_pos ha]
      simp only [ih]
      by_cases h : vs = [] ∨ a + 1 + vs.length ≤ 4096
      · have h' : v :: vs = [] ∨ a + (v :: vs).length ≤ 4096 := by
          right
          rcases h with rfl | h
          · simp only [List.length_cons, List.length_nil]; omega
          · simp only [List.length_cons]; omega
        rw [if_pos h, if_pos h']
        rfl
      · have h' : ¬ (v :: vs = [] ∨ a + (v :: vs).length ≤ 4096) := by
          simp only [List.length_cons, reduceCtorEq, false_or]
          omega
        rw [if_neg h, if_neg h']
        have : max (a + 1) 4096 = max a 4096 := by omega
        rw [this]
    · have h' : ¬ (v :: vs = [] ∨ a + (v :: vs).length ≤ 4096) := by
        simp only [List.length_cons, reduceCtorEq, false_or]
        omega
      have : max a 4096 = a := by omega
      rw [if_neg ha, if_neg h', this]

/-- The byte any address reads as after a block was written. -/
theorem State.readByte_setBytes (s : State) (a : Nat) (vs : List Byte) (b : Nat) :
    State.readByte { s with mem := s.mem.setBytes a vs } b
      = if a ≤ b ∧ b < a + vs.length ∧ b < 4096 then .ok (vs.getD (b - a) 0) else s.readByte b := by
  by_cases hb : b < 4096
  · rw [State.readByte_of_lt _ hb, s.readByte_of_lt hb, Memory.get_setBytes]
    by_cases h : a ≤ b ∧ b < a + vs.length
    · rw [if_pos h, if_pos ⟨h.1, h.2, hb⟩]
    · rw [if_neg h, if_neg fun h' => h ⟨h'.1, h'.2.1⟩]
  · rw [State.readByte_of_ge _ (Nat.not_lt.mp hb), s.readByte_of_ge (Nat.not_lt.mp hb), if_neg fun h' => hb h'.2.2]

/-! The block of registers -/

theorem State.regsUpTo_length (s : State) (x : Reg) : (s.regsUpTo x).length = x.val + 1 := by
  simp [State.regsUpTo]

theorem State.regsUpTo_getD (s : State) (x : Reg) {k : Nat} (hk : k ≤ x.val) :
    (s.regsUpTo x).getD k 0 = s.reg (Fin.ofNat 16 k) := by
  have h : k < (s.regsUpTo x).length := by rw [State.regsUpTo_length]; omega
  rw [List.getD_eq_getElem _ _ h]
  simp [State.regsUpTo]

theorem State.setRegs_eq (s : State) (k : Nat) (vs : List Byte) :
    s.setRegs k vs = { s with regs := (s.setRegs k vs).regs } := by
  induction vs generalizing s k with
  | nil => rfl
  | cons v vs ih => rw [State.setRegs, ih]; rfl

/-- Every register after a block of registers was loaded. -/
theorem State.setRegs_reg (s : State) (k : Nat) (vs : List Byte) (h : k + vs.length ≤ 16) (q : Reg) :
    (s.setRegs k vs).reg q = if k ≤ q.val ∧ q.val < k + vs.length then vs.getD (q.val - k) 0 else s.reg q := by
  induction vs generalizing s k with
  | nil =>
    have h : ¬ (k ≤ q.val ∧ q.val < k) := by omega
    simp [State.setRegs, h]
  | cons v vs ih =>
    rw [List.length_cons] at h
    rw [State.setRegs, ih _ _ (by omega), State.setReg_reg, List.length_cons]
    have hk : (Fin.ofNat 16 k).val = k := Nat.mod_eq_of_lt (by omega)
    by_cases hq : q = Fin.ofNat 16 k
    · have hq' : q.val = k := by rw [hq, hk]
      have h1 : ¬ (k + 1 ≤ q.val ∧ q.val < k + 1 + vs.length) := by omega
      have h2 : k ≤ q.val ∧ q.val < k + (vs.length + 1) := by omega
      rw [if_neg h1, if_pos hq, if_pos h2, hq', Nat.sub_self, List.getD_cons_zero]
    · have hq' : q.val ≠ k := fun e => hq (Fin.ext (by rw [hk, e]))
      by_cases h1 : k + 1 ≤ q.val ∧ q.val < k + 1 + vs.length
      · have h2 : k ≤ q.val ∧ q.val < k + (vs.length + 1) := by omega
        obtain ⟨j, hj⟩ : ∃ j, q.val - k = j + 1 := ⟨q.val - k - 1, by omega⟩
        have hj' : q.val - (k + 1) = j := by omega
        rw [if_pos h1, if_pos h2, hj, hj', List.getD_cons_succ]
      · have h2 : ¬ (k ≤ q.val ∧ q.val < k + (vs.length + 1)) := by omega
        rw [if_neg h1, if_neg hq, if_neg h2]

/-! The stack -/

theorem State.push_of_lt (s : State) (v : Word) (h : s.stack.length < 16) :
    s.push v = .ok { s with stack := v :: s.stack } := if_pos h

theorem State.push_of_ge (s : State) (v : Word) (h : 16 ≤ s.stack.length) : s.push v = .error .stackOverflow :=
  if_neg (Nat.not_lt.mpr h)

theorem State.pop_nil {s : State} (h : s.stack = []) : s.pop = .error .stackUnderflow := by
  unfold State.pop; rw [h]

theorem State.pop_cons {s : State} {t : Word} {ts : List Word} (h : s.stack = t :: ts) :
    s.pop = .ok (t, { s with stack := ts }) := by
  unfold State.pop; rw [h]

/-! The key scan -/

theorem foldl_keep_last {α : Type} (p : α → Bool) (l : List α) (init : Option α) :
    l.foldl (fun found k => if p k then some k else found) init = (l.reverse.find? p).or init := by
  induction l generalizing init with
  | nil => rfl
  | cons a l ih =>
    rw [List.foldl_cons, ih, List.reverse_cons, List.find?_append]
    cases List.find? p l.reverse <;> by_cases h : p a <;> simp [h]

/-- No key is found exactly when none is pressed. -/
theorem scanKeys_eq_none (s : State) : scanKeys s.keys = none ↔ ∀ k, s.key k = false := by
  have h := foldl_keep_last (fun k => s.keys.get k) (List.finRange 16) none
  unfold scanKeys
  rw [h]
  simp [State.key]

/-- The key found is pressed and no higher one is. -/
theorem scanKeys_eq_some (s : State) (k : Reg) :
    scanKeys s.keys = some k ↔ s.key k = true ∧ ∀ j, k < j → s.key j = false := by
  have h := foldl_keep_last (fun k => s.keys.get k) (List.finRange 16) none
  unfold scanKeys
  rw [h, Option.or_none]
  have hsorted : (List.finRange 16).reverse.Pairwise (fun a b => b < a) :=
    List.pairwise_reverse.mpr (List.pairwise_lt_finRange 16)
  constructor
  · intro hf
    obtain ⟨hk, as, bs, hl, has⟩ := List.find?_eq_some_iff_append.mp hf
    refine ⟨hk, fun j hj => ?_⟩
    have hmem : j ∈ as ++ k :: bs := hl ▸ (by simp)
    rw [hl] at hsorted
    have hs := (List.pairwise_append.mp hsorted).2.1
    rcases List.mem_append.mp hmem with hja | hja
    · simpa [State.key] using has j hja
    · rcases List.mem_cons.mp hja with rfl | hjb
      · exact absurd hj (lt_irrefl _)
      · exact absurd hj (lt_asymm ((List.pairwise_cons.mp hs).1 j hjb))
  · rintro ⟨hk, hmax⟩
    cases hf : (List.finRange 16).reverse.find? (fun k => s.keys.get k) with
    | none =>
      have := List.find?_eq_none.mp hf k (by simp)
      exact absurd hk this
    | some j =>
      obtain ⟨hj, as, bs, hl, has⟩ := List.find?_eq_some_iff_append.mp hf
      have hmem : k ∈ as ++ j :: bs := hl ▸ (by simp)
      rw [hl] at hsorted
      have hs := (List.pairwise_append.mp hsorted).2.1
      rcases List.mem_append.mp hmem with hka | hka
      · have := has k hka
        rw [State.key] at hk
        simp [hk] at this
      · rcases List.mem_cons.mp hka with rfl | hkb
        · rfl
        · have h1 := hmax j ((List.pairwise_cons.mp hs).1 k hkb)
          rw [State.key] at h1
          rw [h1] at hj
          exact absurd hj (by decide)

/-! Timers -/

theorem tickTimer_toNat (t : Byte) : (tickTimer t).toNat = t.toNat - 1 := by
  unfold tickTimer
  split
  · next h => rw [h]; rfl
  · next h =>
    have : t.toNat ≠ 0 := fun h0 => h (BitVec.eq_of_toNat_eq h0)
    have h1 : (1 : Byte).toNat = 1 := rfl
    rw [BitVec.toNat_sub, h1]
    omega

/-! Fetch and step -/

theorem State.fetch_of_lt (s : State) (h : s.pc.toNat + 1 < 4096) :
    s.fetch = .ok (wordOfBytes (s.mem.get s.pc.toNat) (s.mem.get (s.pc.toNat + 1))) := by
  unfold State.fetch
  rw [s.readByte_of_lt (by omega), s.readByte_of_lt h]

theorem State.fetch_of_ge (s : State) (h : 4096 ≤ s.pc.toNat + 1) :
    s.fetch = .error (.addressRange (max s.pc.toNat 4096)) := by
  unfold State.fetch
  by_cases h' : s.pc.toNat < 4096
  · have : max s.pc.toNat 4096 = s.pc.toNat + 1 := by omega
    rw [s.readByte_of_lt h', s.readByte_of_ge h, this]
  · have : max s.pc.toNat 4096 = s.pc.toNat := by omega
    rw [s.readByte_of_ge (Nat.not_lt.mp h'), this]

theorem State.fetch_eq_of_bytes {s : State} {hi lo : Byte} (h0 : s.readByte s.pc.toNat = .ok hi)
    (h1 : s.readByte (s.pc.toNat + 1) = .ok lo) : s.fetch = .ok (wordOfBytes hi lo) := by
  unfold State.fetch
  rw [h0, h1]

theorem State.fetchDecode_of_instr {s : State} {w : Word} {i : Instr} (hf : s.fetch = .ok w)
    (hd : decode w = .instr i) : s.fetchDecode = .ok i := by
  unfold State.fetchDecode
  rw [hf]
  simp only [hd]

theorem State.fetchDecode_of_illegal {s : State} {w : Word} {r : Reject} (hf : s.fetch = .ok w)
    (hd : decode w = .illegal r) : s.fetchDecode = .error (.decodeError w) := by
  unfold State.fetchDecode
  rw [hf]
  simp only [hd]

theorem State.fetchDecode_of_fault {s : State} {f : Fault} (hf : s.fetch = .error f) : s.fetchDecode = .error f := by
  unfold State.fetchDecode
  rw [hf]

/-- An instruction that is fetched stands as a word at PC, and PC is at most 4094. -/
theorem State.fetchDecode_ok {s : State} {i : Instr} (h : s.fetchDecode = .ok i) :
    s.pc.toNat + 1 < 4096 ∧ ∃ w, s.fetch = .ok w ∧ decode w = .instr i := by
  unfold State.fetchDecode at h
  cases hf : s.fetch with
  | error f => rw [hf] at h; cases h
  | ok w =>
    rw [hf] at h
    simp only at h
    cases hd : decode w with
    | illegal r => rw [hd] at h; cases h
    | instr j =>
      rw [hd] at h
      cases h
      refine ⟨Nat.not_le.mp fun hge => ?_, w, rfl, hd⟩
      rw [s.fetch_of_ge hge] at hf
      cases hf

theorem step_of_instr {s : State} {i : Instr} (h : s.fetchDecode = .ok i) : step s = retire (exec i s) := by
  unfold step
  rw [h]

theorem step_of_fault {s : State} {f : Fault} (h : s.fetchDecode = .error f) : step s = .fault f := by
  unfold step
  rw [h]
  rfl

/-- All that a completed step can be: an instruction fetched and decoded, its handler completed, the timers ticked. -/
theorem step_next {s t : State} (h : step s = .next t) :
    ∃ i u, s.fetchDecode = .ok i ∧ exec i s = .next u ∧ t = u.tick := by
  cases hf : s.fetchDecode with
  | error f => rw [step_of_fault hf] at h; cases h
  | ok i =>
    rw [step_of_instr hf] at h
    cases he : exec i s with
    | next u => rw [he] at h; cases h; exact ⟨i, u, rfl, he, rfl⟩
    | fault f => rw [he] at h; cases h
    | refused r => rw [he] at h; cases h

/-- All that a faulting step can be: the fetch's or decoder's fault, or the handler's own. -/
theorem step_fault {s : State} {f : Fault} (h : step s = .fault f) :
    s.fetchDecode = .error f ∨ ∃ i, s.fetchDecode = .ok i ∧ exec i s = .fault f := by
  cases hf : s.fetchDecode with
  | error g => rw [step_of_fault hf] at h; cases h; exact .inl rfl
  | ok i =>
    rw [step_of_instr hf] at h
    cases he : exec i s with
    | next u => rw [he] at h; cases h
    | fault g => rw [he] at h; cases h; exact .inr ⟨i, rfl, he⟩
    | refused r => rw [he] at h; cases h

/-! Runs -/

theorem host_run_succ (M : Host.Core) (k : Nat) (s : M.State) : M.run (k + 1) s = match M.step s with
    | .next t => M.run k t
    | .fault f => .fault f
    | .refused r => .refused r := rfl

/-- A run whose first step completes goes on from the state that step left. -/
theorem core_run_of_next {k : Nat} {s t : State} (h : step s = .next t) : core.run (k + 1) s = core.run k t := by
  have hs : core.step s = .next t := h
  have hr := host_run_succ core k s
  rw [hs] at hr
  exact hr

end Sys2Proof.Machine
end

