-- ==== Sys2Proof/Laws/Screen.lean ====
section
/-! SUPPORT. The laws of the display: a pixel read after a pixel write, the points of a sprite, and all that a blit can
do to a pixel and to the collision flag. -/

namespace Sys2Proof.Machine

theorem Display.pixel_setPixel (d : Display) (y : Fin 32) (x : Fin 64) (b : Bool) (y' : Fin 32) (x' : Fin 64) :
    (d.setPixel y x b).pixel y' x' = if y' = y ∧ x' = x then b else d.pixel y' x' := by
  simp only [Display.pixel, Display.setPixel, Vector.get_eq_getElem, Vector.getElem_set]
  by_cases hy : y' = y
  · subst hy
    simp [Vector.getElem_set, Fin.ext_iff, eq_comm]
  · have hy' : y.val ≠ y'.val := fun h => hy (Fin.ext h.symm)
    simp [hy, hy']

@[simp] theorem clearDisplay_pixel (y : Fin 32) (x : Fin 64) : clearDisplay.pixel y x = false := by
  simp [clearDisplay, Display.pixel, Vector.get_eq_getElem]

/-- What a list of distinct points does: each pixel named toggles, the others stay, and the flag is raised by a pixel
named that was set. -/
theorem foldl_togglePixel (ps : List (Fin 32 × Fin 64)) (h : ps.Nodup) (d : Display) (c : Bool) :
    (∀ y x, (ps.foldl togglePixel (d, c)).1.pixel y x = (d.pixel y x ^^ decide ((y, x) ∈ ps))) ∧
      (ps.foldl togglePixel (d, c)).2 = (c || ps.any fun p => d.pixel p.1 p.2) := by
  induction ps generalizing d c with
  | nil => simp
  | cons p ps ih =>
    obtain ⟨hp, hps⟩ := List.nodup_cons.mp h
    have ih := ih hps (d.setPixel p.1 p.2 (d.pixel p.1 p.2 ^^ true)) (c || d.pixel p.1 p.2)
    rw [List.foldl_cons]
    change (∀ y x, (ps.foldl togglePixel (d.setPixel p.1 p.2 _, _)).1.pixel y x = _) ∧ _
    refine ⟨fun y x => ?_, ?_⟩
    · rw [ih.1, Display.pixel_setPixel]
      by_cases hyx : y = p.1 ∧ x = p.2
      · have : (y, x) = p := Prod.ext hyx.1 hyx.2
        rw [if_pos hyx, this, hyx.1, hyx.2]
        simp [hp]
      · have : (y, x) ≠ p := fun e => hyx ⟨congrArg Prod.fst e, congrArg Prod.snd e⟩
        rw [if_neg hyx]
        simp [this]
    · change (ps.foldl togglePixel (d.setPixel p.1 p.2 _, c || d.pixel p.1 p.2)).2 = _
      rw [ih.2, List.any_cons, Bool.or_assoc]
      congr 2
      rw [Bool.eq_iff_iff, List.any_eq_true, List.any_eq_true]
      refine exists_congr fun q => and_congr_right fun hq => ?_
      have : ¬ (q.1 = p.1 ∧ q.2 = p.2) := fun e => hp (Prod.ext e.1 e.2 ▸ hq)
      rw [Display.pixel_setPixel, if_neg this]

theorem mem_setColumns (b : Byte) (c : Nat) : c ∈ setColumns b ↔ c < 8 ∧ b.getLsbD (7 - c) = true := by
  simp [setColumns]

theorem mem_rowPoints (x0 y0 r : Nat) (b : Byte) (p : Fin 32 × Fin 64) :
    p ∈ rowPoints x0 y0 r b ↔ ∃ c < 8, b.getLsbD (7 - c) = true ∧ p.1 = Fin.ofNat 32 (y0 + r) ∧ p.2 = Fin.ofNat 64 (x0 + c) := by
  simp only [rowPoints, List.mem_map, mem_setColumns]
  constructor
  · rintro ⟨c, ⟨hc, hb⟩, rfl⟩
    exact ⟨c, hc, hb, rfl, rfl⟩
  · rintro ⟨c, hc, hb, h1, h2⟩
    exact ⟨c, ⟨hc, hb⟩, (Prod.ext h1 h2).symm⟩

/-- The points of a sprite: row `k`, column `c`, wherever the bit is 1, wrapped on each axis (R121). -/
theorem mem_spritePoints (x0 y0 r : Nat) (bs : List Byte) (p : Fin 32 × Fin 64) :
    p ∈ spritePoints x0 y0 r bs ↔ ∃ k < bs.length, ∃ c < 8, (bs.getD k 0).getLsbD (7 - c) = true ∧
      p.1 = Fin.ofNat 32 (y0 + (r + k)) ∧ p.2 = Fin.ofNat 64 (x0 + c) := by
  induction bs generalizing r with
  | nil => simp [spritePoints]
  | cons b bs ih =>
    rw [spritePoints, List.mem_append, mem_rowPoints, ih]
    constructor
    · rintro (⟨c, hc, hb, h1, h2⟩ | ⟨k, hk, c, hc, hb, h1, h2⟩)
      · exact ⟨0, by simp, c, hc, by simpa using hb, by simpa using h1, h2⟩
      · exact ⟨k + 1, by simpa using hk, c, hc, by simpa using hb, by rw [h1]; congr 1; omega, h2⟩
    · rintro ⟨k, hk, c, hc, hb, h1, h2⟩
      cases k with
      | zero => exact .inl ⟨c, hc, by simpa using hb, by simpa using h1, h2⟩
      | succ k =>
        exact .inr ⟨k, by simpa using hk, c, hc, by simpa using hb, by rw [h1]; congr 1; omega, h2⟩

theorem ofNat_add_inj {n a i j : Nat} [NeZero n] (hi : i < n) (hj : j < n)
    (h : Fin.ofNat n (a + i) = Fin.ofNat n (a + j)) : i = j := by
  have h : (a + i) % n = (a + j) % n := congrArg Fin.val h
  have h : i % n = j % n := Nat.ModEq.add_left_cancel' a h
  rwa [Nat.mod_eq_of_lt hi, Nat.mod_eq_of_lt hj] at h

theorem rowPoints_nodup (x0 y0 r : Nat) (b : Byte) : (rowPoints x0 y0 r b).Nodup := by
  refine (List.Nodup.filter _ List.nodup_range).map_on fun c hc c' hc' h => ?_
  have hc := (mem_setColumns b c).mp hc
  have hc' := (mem_setColumns b c').mp hc'
  exact ofNat_add_inj (by omega) (by omega) (congrArg Prod.snd h)

/-- Within one sprite of at most 32 rows no pixel is touched twice (R122.4). -/
theorem spritePoints_nodup (x0 y0 r : Nat) (bs : List Byte) (h : r + bs.length ≤ 32) :
    (spritePoints x0 y0 r bs).Nodup := by
  induction bs generalizing r with
  | nil => exact List.nodup_nil
  | cons b bs ih =>
    rw [List.length_cons] at h
    rw [spritePoints, List.nodup_append]
    refine ⟨rowPoints_nodup x0 y0 r b, ih (r + 1) (by omega), ?_⟩
    intro p hp q hq hpq
    obtain ⟨c, -, -, h1, -⟩ := (mem_rowPoints x0 y0 r b p).mp hp
    obtain ⟨k, hk, c', -, -, h2, -⟩ := (mem_spritePoints x0 y0 (r + 1) bs q).mp hq
    rw [hpq] at h1
    have := ofNat_add_inj (n := 32) (a := y0) (i := r) (j := r + 1 + k) (by omega) (by omega) (h1.symm.trans h2)
    omega

/-- All that a blit of at most 32 rows can do: a pixel under a 1 bit toggles, every other stays, and the flag says
whether a pixel under a 1 bit was set (R121). -/
theorem blit_eq (d : Display) (x0 y0 : Nat) (bs : List Byte) (h : bs.length ≤ 32) :
    (∀ y x, (blit d x0 y0 bs).1.pixel y x = (d.pixel y x ^^ decide ((y, x) ∈ spritePoints x0 y0 0 bs))) ∧
      ((blit d x0 y0 bs).2 = true ↔ ∃ p ∈ spritePoints x0 y0 0 bs, d.pixel p.1 p.2 = true) := by
  obtain ⟨h1, h2⟩ := foldl_togglePixel (spritePoints x0 y0 0 bs) (spritePoints_nodup x0 y0 0 bs (by omega)) d false
  refine ⟨h1, ?_⟩
  unfold blit
  rw [h2, Bool.false_or, List.any_eq_true]

end Sys2Proof.Machine
end

