-- ==== Sys2Proof/Laws/Terms.lean ====
section
/-! SUPPORT. The terms claims are made in, beside the machine's own: the fields of a word as numbers are the decoder's
bit slices; a frame is kept piece by piece. -/

namespace Sys2Proof.Machine

theorem bigEndian_eq (hi lo : Byte) : bigEndian hi lo = wordOfBytes hi lo := by
  apply BitVec.eq_of_toNat_eq
  have := hi.isLt
  have := lo.isLt
  rw [wordOfBytes_toNat, bigEndian, BitVec.toNat_ofNat]
  omega

theorem numX_eq (w : Word) : numX w = fieldX w := Fin.ext (by rw [fieldX_val]; rfl)

theorem numY_eq (w : Word) : numY w = fieldY w := Fin.ext (by rw [fieldY_val]; rfl)

theorem numN_eq (w : Word) : numN w = fieldN w := Fin.ext (by rw [fieldN_val]; rfl)

theorem numNN_eq (w : Word) : numNN w = fieldNN w :=
  BitVec.eq_of_toNat_eq (by rw [fieldNN_toNat, numNN, BitVec.toNat_ofNat])

theorem numNNN_eq (w : Word) : numNNN w = fieldNNN w :=
  BitVec.eq_of_toNat_eq (by rw [fieldNNN_toNat, numNNN, BitVec.toNat_ofNat]; omega)

theorem initialByte_of_ge {a : Nat} (h : 80 ≤ a) : initialByte a = 0 := by
  unfold initialByte
  rw [List.getD_eq_default]
  exact h

/-! Frames -/

theorem KeepsExcept.refl (ps : List Piece) (rs : List Reg) (s : State) : KeepsExcept ps rs s s :=
  ⟨fun p _ => by cases p <;> simp [Piece.Same], fun _ _ => rfl⟩

/-- A frame follows from the fields: each piece that may not change is the same field, memory by its list. -/
theorem KeepsExcept.of_fields {ps : List Piece} {rs : List Reg} {s t : State}
    (hi : .iReg ∉ ps → t.iReg = s.iReg) (hs : .stack ∉ ps → t.stack = s.stack) (hd : .delay ∉ ps → t.dt = s.dt)
    (ht : .sound ∉ ps → t.st = s.st) (hm : .memory ∉ ps → t.mem = s.mem) (hp : .display ∉ ps → t.disp = s.disp)
    (hk : .keys ∉ ps → t.keys = s.keys) (hr : .draws ∉ ps → t.draws = s.draws)
    (hregs : ∀ r, r ∉ rs → t.reg r = s.reg r) : KeepsExcept ps rs s t := by
  refine ⟨fun p h => ?_, hregs⟩
  cases p with
  | iReg => exact hi h
  | stack => exact hs h
  | delay => exact hd h
  | sound => exact ht h
  | memory => exact State.readByte_congr (hm h)
  | display => intro y x; rw [hp h]
  | keys => intro k; unfold State.key; rw [hk h]
  | draws => exact hr h

end Sys2Proof.Machine
end

