-- ==== Sys2Proof/Laws/Exec.lean ====
section
/-! SUPPORT. One lemma for each handler that may fault or whose effect is computed: all it can do. The other handlers
are one update of the state, which the lemmas of Laws/State.lean read off. -/

namespace Sys2Proof.Machine

@[simp] theorem State.effective_zero (s : State) : s.effective 0 = s.iReg.toNat := Nat.add_zero _

theorem execRet_nil {s : State} (h : s.stack = []) : exec .ret s = .fault .stackUnderflow := by
  change execRet s = _
  unfold execRet
  rw [State.pop_nil h, attempt_error]

theorem execRet_cons {s : State} {t : Word} {ts : List Word} (h : s.stack = t :: ts) :
    exec .ret s = .next { s with stack := ts, pc := t + 2 } := by
  change execRet s = _
  unfold execRet
  rw [State.pop_cons h, attempt_ok]
  rfl

theorem execCall_of_lt (nnn : Word) {s : State} (h : s.stack.length < 16) :
    exec (.call nnn) s = .next { s with stack := s.pc :: s.stack, pc := nnn } := by
  change execCall nnn s = _
  unfold execCall
  rw [s.push_of_lt s.pc h, attempt_ok]
  rfl

theorem execCall_of_ge (nnn : Word) {s : State} (h : 16 ≤ s.stack.length) :
    exec (.call nnn) s = .fault .stackOverflow := by
  change execCall nnn s = _
  unfold execCall
  rw [s.push_of_ge s.pc h, attempt_error]

theorem execAddI_of_le (x : Reg) {s : State} (h : s.iReg.toNat + (s.reg x).toNat ≤ 0xFFFF) :
    exec (.addI x) s = .next ((s.setI (s.iReg + zext (s.reg x))).advance 2) := by
  change execAddI x s = _
  unfold execAddI indexSum
  rw [if_pos h, attempt_ok, State.done_eq]

theorem execAddI_of_gt (x : Reg) {s : State} (h : 0xFFFF < s.iReg.toNat + (s.reg x).toNat) :
    exec (.addI x) s = .fault .indexOverflow := by
  change execAddI x s = _
  unfold execAddI indexSum
  rw [if_neg (Nat.not_le.mpr h), attempt_error]

theorem indexSum_toNat {i : Word} {v : Byte} (h : i.toNat + v.toNat ≤ 0xFFFF) :
    (i + zext v).toNat = i.toNat + v.toNat := by
  have := v.isLt
  rw [BitVec.toNat_add, zext, BitVec.toNat_setWidth]
  omega

theorem glyphAddress_toNat (v : Byte) : (glyphAddress v).toNat = v.toNat * 5 := by
  have := v.isLt
  rw [glyphAddress, BitVec.toNat_ofNat]
  omega

/-- `LD B,VX` stores the three digits whole, or nothing and faults. -/
theorem execLdB_eq (x : Reg) (s : State) :
    exec (.ldB x) s = if s.iReg.toNat + 3 ≤ 4096
      then .next (State.advance { s with mem := s.mem.setBytes s.iReg.toNat (decimalDigits (s.reg x)) } 2)
      else .fault (.addressRange (max s.iReg.toNat 4096)) := by
  change execLdB x s = _
  unfold execLdB
  rw [State.effective_zero]
  rw [State.writeBytes_eq]
  by_cases h : s.iReg.toNat + 3 ≤ 4096
  · rw [if_pos (.inr h), if_pos h, attempt_ok, State.done_eq]
  · rw [if_neg (by simpa [decimalDigits] using h), if_neg h, attempt_error]

/-- `LD [I],VX` stores V0 to VX whole, or nothing and faults. -/
theorem execStoreRegs_eq (x : Reg) (s : State) :
    exec (.storeRegs x) s = if s.iReg.toNat + (x.val + 1) ≤ 4096
      then .next (State.advance { s with mem := s.mem.setBytes s.iReg.toNat (s.regsUpTo x) } 2)
      else .fault (.addressRange (max s.iReg.toNat 4096)) := by
  change execStoreRegs x s = _
  unfold execStoreRegs
  rw [State.effective_zero]
  have hl := s.regsUpTo_length x
  have hne : s.regsUpTo x ≠ [] := fun e => by rw [e] at hl; cases hl
  rw [State.writeBytes_eq, hl]
  by_cases h : s.iReg.toNat + (x.val + 1) ≤ 4096
  · rw [if_pos (.inr h), if_pos h, attempt_ok, State.done_eq]
  · rw [if_neg (not_or.mpr ⟨hne, h⟩), if_neg h, attempt_error]

/-- `LD VX,[I]` loads V0 to VX, or nothing and faults. -/
theorem execLoadRegs_eq (x : Reg) (s : State) :
    exec (.loadRegs x) s = if s.iReg.toNat + (x.val + 1) ≤ 4096
      then .next ((s.setRegs 0 ((List.range (x.val + 1)).map fun k => s.mem.get (s.iReg.toNat + k))).advance 2)
      else .fault (.addressRange (max s.iReg.toNat 4096)) := by
  change execLoadRegs x s = _
  unfold execLoadRegs
  rw [State.effective_zero]
  rw [State.readBytes_eq]
  by_cases h : s.iReg.toNat + (x.val + 1) ≤ 4096
  · rw [if_pos (.inr h), if_pos h, attempt_ok, State.done_eq]
  · rw [if_neg (not_or.mpr ⟨by omega, h⟩), if_neg h, attempt_error]

/-- The sprite bytes of a `DRW`: `n` bytes at I. -/
theorem execDrw_eq (x y : Reg) (n : Fin 16) (s : State) :
    exec (.drw x y n) s = if n.val = 0 ∨ s.iReg.toNat + n.val ≤ 4096
      then .next (((s.setFlag (flagByte (blit s.disp (s.reg x).toNat (s.reg y).toNat
          ((List.range n.val).map fun k => s.mem.get (s.iReg.toNat + k))).2)).setDisplay
        (blit s.disp (s.reg x).toNat (s.reg y).toNat
          ((List.range n.val).map fun k => s.mem.get (s.iReg.toNat + k))).1).advance 2)
      else .fault (.addressRange (max s.iReg.toNat 4096)) := by
  change execDrw x y n s = _
  unfold execDrw
  rw [State.effective_zero]
  rw [State.readBytes_eq]
  by_cases h : n.val = 0 ∨ s.iReg.toNat + n.val ≤ 4096
  · rw [if_pos h, if_pos h, attempt_ok, State.done_eq]
  · rw [if_neg h, if_neg h, attempt_error]

/-- The points a `DRW` toggles are the pixels under the 1 bits of its sprite (R121). -/
theorem mem_spritePoints_iff_underSprite (s : State) (x0 y0 n : Nat) (h : n = 0 ∨ s.iReg.toNat + n ≤ 4096)
    (py : Fin 32) (px : Fin 64) :
    (py, px) ∈ spritePoints x0 y0 0 ((List.range n).map fun k => s.mem.get (s.iReg.toNat + k)) ↔
      UnderSprite s x0 y0 n py px := by
  rw [mem_spritePoints]
  unfold UnderSprite
  have hb : ∀ k, k < n → ((List.range n).map fun k => s.mem.get (s.iReg.toNat + k)).getD k 0
      = s.mem.get (s.iReg.toNat + k) := by
    intro k hk
    rw [List.getD_eq_getElem _ _ (by simpa using hk)]
    simp
  constructor
  · rintro ⟨k, hk, c, hc, hbit, h1, h2⟩
    have hk : k < n := by simpa using hk
    rw [hb k hk] at hbit
    refine ⟨k, c, hk, hc, ⟨_, s.readByte_of_lt (by omega), hbit⟩, congrArg Fin.val h2, ?_⟩
    rw [Nat.zero_add] at h1
    exact congrArg Fin.val h1
  · rintro ⟨k, c, hk, hc, ⟨b, hr, hbit⟩, h2, h1⟩
    refine ⟨k, by simpa using hk, c, hc, ?_, Fin.ext (by rw [Nat.zero_add]; exact h1), Fin.ext h2⟩
    rw [hb k hk, ((s.readByte_ok_iff _ b).mp hr).2]
    exact hbit

theorem keyNumbered_of_lt {s : State} {v : Byte} {k : Reg} (h : k.val = v.toNat) : s.keyNumbered v = .ok (s.key k) := by
  have hv : v.toNat < 16 := h ▸ k.isLt
  have hk : Fin.ofNat 16 v.toNat = k := Fin.ext ((Nat.mod_eq_of_lt hv).trans h.symm)
  unfold State.keyNumbered
  rw [if_pos hv, hk]

theorem keyNumbered_of_ge {s : State} {v : Byte} (h : 15 < v.toNat) : s.keyNumbered v = .error (.keyRange v) :=
  if_neg (by omega)

theorem execSkp_of_lt {x : Reg} {s : State} {k : Reg} (h : k.val = (s.reg x).toNat) :
    exec (.skp x) s = .next (s.advance (if s.key k then 4 else 2)) := by
  change execSkp x s = _
  unfold execSkp
  rw [keyNumbered_of_lt h, attempt_ok, State.skipIf_eq]

theorem execSknp_of_lt {x : Reg} {s : State} {k : Reg} (h : k.val = (s.reg x).toNat) :
    exec (.sknp x) s = .next (s.advance (if !(s.key k) then 4 else 2)) := by
  change execSknp x s = _
  unfold execSknp
  rw [keyNumbered_of_lt h, attempt_ok, State.skipIf_eq]

theorem execSkp_of_ge {x : Reg} {s : State} (h : 15 < (s.reg x).toNat) :
    exec (.skp x) s = .fault (.keyRange (s.reg x)) := by
  change execSkp x s = _
  unfold execSkp
  rw [keyNumbered_of_ge h, attempt_error]

theorem execSknp_of_ge {x : Reg} {s : State} (h : 15 < (s.reg x).toNat) :
    exec (.sknp x) s = .fault (.keyRange (s.reg x)) := by
  change execSknp x s = _
  unfold execSknp
  rw [keyNumbered_of_ge h, attempt_error]

theorem execLdVxK_none {x : Reg} {s : State} (h : ∀ k, s.key k = false) : exec (.ldVxK x) s = .next s := by
  change execLdVxK x s = _
  unfold execLdVxK
  rw [(scanKeys_eq_none s).mpr h]

theorem execLdVxK_some {x : Reg} {s : State} {k : Reg} (h : s.key k = true) (hmax : ∀ j, k < j → s.key j = false) :
    exec (.ldVxK x) s = .next ((s.setReg x (BitVec.ofNat 8 k.val)).advance 2) := by
  change execLdVxK x s = _
  unfold execLdVxK
  rw [(scanKeys_eq_some s k).mpr ⟨h, hmax⟩]
  rfl

/-- If some key is pressed, there is a highest one. -/
theorem exists_highest_key {s : State} (h : ¬ ∀ k, s.key k = false) :
    ∃ k, s.key k = true ∧ ∀ j, k < j → s.key j = false := by
  cases hs : scanKeys s.keys with
  | none => exact absurd ((scanKeys_eq_none s).mp hs) h
  | some k => exact ⟨k, (scanKeys_eq_some s k).mp hs⟩

end Sys2Proof.Machine
end

