-- ==== Sys2Proof/Laws/PerInstr.lean ====
section
/-! SUPPORT. Per-instruction family RoundTrip: the decoder reads a well-formed instruction back from its word, one lemma
per constructor. -/

namespace Sys2Proof

/-- The decoder reads the instruction back from the word the encoder writes. -/
def Laws.RoundTrip.Statement (i : Instr) : Prop := i.WellFormed → decode (encode i) = .instr i

namespace Laws.RoundTrip

theorem cls : Statement .cls := fun _ => by decide

theorem ret : Statement .ret := fun _ => by decide

theorem jp (nnn : Word) : Statement (.jp nnn) := fun h => by simp [encode, decode, fieldNNN_wordNNN _ h]

theorem call (nnn : Word) : Statement (.call nnn) := fun h => by simp [encode, decode, fieldNNN_wordNNN _ h]

theorem seImm (x : Reg) (nn : Byte) : Statement (.seImm x nn) := fun _ => by simp [encode, decode]

theorem sneImm (x : Reg) (nn : Byte) : Statement (.sneImm x nn) := fun _ => by simp [encode, decode]

theorem seReg (x : Reg) (y : Reg) : Statement (.seReg x y) := fun _ => by simp [encode, decode]

theorem ldImm (x : Reg) (nn : Byte) : Statement (.ldImm x nn) := fun _ => by simp [encode, decode]

theorem addImm (x : Reg) (nn : Byte) : Statement (.addImm x nn) := fun _ => by simp [encode, decode]

theorem ldReg (x : Reg) (y : Reg) : Statement (.ldReg x y) := fun _ => by simp [encode, decode, decode8]

theorem orReg (x : Reg) (y : Reg) : Statement (.orReg x y) := fun _ => by simp [encode, decode, decode8]

theorem andReg (x : Reg) (y : Reg) : Statement (.andReg x y) := fun _ => by simp [encode, decode, decode8]

theorem xorReg (x : Reg) (y : Reg) : Statement (.xorReg x y) := fun _ => by simp [encode, decode, decode8]

theorem addReg (x : Reg) (y : Reg) : Statement (.addReg x y) := fun _ => by simp [encode, decode, decode8]

theorem sub (x : Reg) (y : Reg) : Statement (.sub x y) := fun _ => by simp [encode, decode, decode8]

theorem shr (x : Reg) : Statement (.shr x) := fun _ => by simp [encode, decode, decode8]

theorem subn (x : Reg) (y : Reg) : Statement (.subn x y) := fun _ => by simp [encode, decode, decode8]

theorem shl (x : Reg) : Statement (.shl x) := fun _ => by simp [encode, decode, decode8]

theorem sneReg (x : Reg) (y : Reg) : Statement (.sneReg x y) := fun _ => by simp [encode, decode]

theorem ldI (nnn : Word) : Statement (.ldI nnn) := fun h => by simp [encode, decode, fieldNNN_wordNNN _ h]

theorem jpV0 (nnn : Word) : Statement (.jpV0 nnn) := fun h => by simp [encode, decode, fieldNNN_wordNNN _ h]

theorem rnd (x : Reg) (nn : Byte) : Statement (.rnd x nn) := fun _ => by simp [encode, decode]

theorem drw (x : Reg) (y : Reg) (n : Fin 16) : Statement (.drw x y n) := fun _ => by simp [encode, decode]

theorem skp (x : Reg) : Statement (.skp x) := fun _ => by simp [encode, decode, decodeE]

theorem sknp (x : Reg) : Statement (.sknp x) := fun _ => by simp [encode, decode, decodeE]

theorem ldVxDt (x : Reg) : Statement (.ldVxDt x) := fun _ => by simp [encode, decode, decodeF]

theorem ldVxK (x : Reg) : Statement (.ldVxK x) := fun _ => by simp [encode, decode, decodeF]

theorem ldDtVx (x : Reg) : Statement (.ldDtVx x) := fun _ => by simp [encode, decode, decodeF]

theorem ldStVx (x : Reg) : Statement (.ldStVx x) := fun _ => by simp [encode, decode, decodeF]

theorem addI (x : Reg) : Statement (.addI x) := fun _ => by simp [encode, decode, decodeF]

theorem ldF (x : Reg) : Statement (.ldF x) := fun _ => by simp [encode, decode, decodeF]

theorem ldB (x : Reg) : Statement (.ldB x) := fun _ => by simp [encode, decode, decodeF]

theorem storeRegs (x : Reg) : Statement (.storeRegs x) := fun _ => by simp [encode, decode, decodeF]

theorem loadRegs (x : Reg) : Statement (.loadRegs x) := fun _ => by simp [encode, decode, decodeF]

end Laws.RoundTrip

end Sys2Proof
end

