-- ==== Sys2Proof/Tests/Slice0.lean ====
section
/-! SUPPORT. The model's own tests: ill-formed terms refused; every constructor decoded from a word written out from
the tables of spec/30_encoding.md (the words of spec/95_test_vectors.md 2.1); one step per test on the vectors of
spec/95_test_vectors.md; and for every obligation with hypotheses a state and operands that meet them. -/


namespace Sys2Proof.Tests

open Sys2Proof Sys2Proof.Machine

-- the tests are checked one after another: side by side they ask for more threads than memory allows
set_option Elab.async false

/-! Helpers -/

/-- The state after reset with some registers, I and the bytes at I as given. -/
def made (regs : List (Reg × Byte)) (i : Word := 0) (bytes : List Byte := []) : State :=
  let s := regs.foldl (fun s p => s.setReg p.1 p.2) State.reset
  { s with iReg := i, mem := s.mem.setBytes i.toNat bytes }

/-- The state after reset with a stack, the most recent entry first. -/
def stacked (l : List Word) : State := { State.reset with stack := l }

/-- The state after reset with some keys pressed. -/
def pressing (ks : List Reg) (s : State := State.reset) : State := ks.foldl (fun s k => s.setKey k true) s

/-- Registers V0 to VF holding A0 to AF. -/
def ladder : List (Reg × Byte) := (List.finRange 16).map fun r => (r, BitVec.ofNat 8 (0xA0 + r.val))

/-- One step of the word `w` at PC. -/
def run (w : Nat) (s : State) : Result := step (s.withFetchWord 16 w)

/-- What the next state says, if there is one. -/
def after {α : Type} (r : Result) (f : State → α) : Option α :=
  match r with
  | .next t => some (f t)
  | .fault _ => none
  | .refused _ => none

/-- The fault, if there is one. -/
def faultOf (r : Result) : Option Fault :=
  match r with
  | .next _ => none
  | .fault f => some f
  | .refused _ => none

/-- Whether there is a next state. -/
def completes (r : Result) : Bool := (after r fun _ => ()).isSome

theorem completes_iff (r : Result) : completes r = true ↔ ∃ t, r = .next t := by
  cases r <;> simp [completes, after]

theorem faultOf_iff (r : Result) (f : Fault) : faultOf r = some f ↔ r = .fault f := by
  cases r <;> simp [faultOf]

/-- The value of a successful access. -/
def value {α : Type} (e : Except Fault α) : Option α :=
  match e with
  | .ok a => some a
  | .error _ => none

/-- The fault of an access. -/
def errorOf {α : Type} (e : Except Fault α) : Option Fault :=
  match e with
  | .ok _ => none
  | .error f => some f

/-- The pixels of value 1, as (x, y). -/
def lit (s : State) : List (Nat × Nat) :=
  s.disp.toList.zipIdx.flatMap fun row => (row.1.toList.zipIdx.filter fun p => p.1).map fun p => (p.2, row.2)

/-! Well-formedness: each check, on the first value it refuses and the last it accepts -/

theorem test_wellFormed_jp : (Instr.jp 0x1000).wellFormed = false ∧
    (Instr.jp 0xFFF).wellFormed = true := by decide +kernel
theorem test_wellFormed_call : (Instr.call 0x1000).wellFormed = false ∧
    (Instr.call 0xFFF).wellFormed = true := by decide +kernel
theorem test_wellFormed_ldI : (Instr.ldI 0xFFFF).wellFormed = false ∧
    (Instr.ldI 0xFFF).wellFormed = true := by decide +kernel
theorem test_wellFormed_jpV0 : (Instr.jpV0 0x8000).wellFormed = false ∧
    (Instr.jpV0 0xFFF).wellFormed = true := by decide +kernel

/-! Decoding: the words of spec/95_test_vectors.md 2.1; a binary word is written out from the formats of R51 -/

theorem test_decode_cls : decode 0b0000000011100000 = .instr .cls ∧ decode 0x0AE0 = .instr .cls := by decide +kernel
theorem test_decode_ret : decode 0b0000000011101110 = .instr .ret := by decide +kernel
theorem test_decode_jp : decode 0b0001101010111100 = .instr (.jp 0xABC) := by decide +kernel
theorem test_decode_call : decode 0x2FFF = .instr (.call 0xFFF) := by decide +kernel
theorem test_decode_seImm : decode 0b0011101000010010 = .instr (.seImm 0xA 0x12) := by decide +kernel
theorem test_decode_sneImm : decode 0x4A12 = .instr (.sneImm 0xA 0x12) := by decide +kernel
theorem test_decode_seReg : decode 0x5120 = .instr (.seReg 1 2) ∧
    decode 0x5127 = .instr (.seReg 1 2) := by decide +kernel
theorem test_decode_ldImm : decode 0b0110101000111100 = .instr (.ldImm 0xA 0x3C) := by decide +kernel
theorem test_decode_addImm : decode 0x7A01 = .instr (.addImm 0xA 0x01) := by decide +kernel
theorem test_decode_ldReg : decode 0b1000000100100000 = .instr (.ldReg 1 2) := by decide +kernel
theorem test_decode_orReg : decode 0x8121 = .instr (.orReg 1 2) := by decide +kernel
theorem test_decode_andReg : decode 0x8122 = .instr (.andReg 1 2) := by decide +kernel
theorem test_decode_xorReg : decode 0x8123 = .instr (.xorReg 1 2) := by decide +kernel
theorem test_decode_addReg : decode 0x8124 = .instr (.addReg 1 2) := by decide +kernel
theorem test_decode_sub : decode 0x8125 = .instr (.sub 1 2) := by decide +kernel
theorem test_decode_shr : decode 0x8126 = .instr (.shr 1) ∧ decode 0x8AB6 = .instr (.shr 0xA) := by decide +kernel
theorem test_decode_subn : decode 0x8127 = .instr (.subn 1 2) := by decide +kernel
theorem test_decode_shl : decode 0x812E = .instr (.shl 1) := by decide +kernel
theorem test_decode_sneReg : decode 0x912F = .instr (.sneReg 1 2) := by decide +kernel
theorem test_decode_ldI : decode 0b1010000100100011 = .instr (.ldI 0x123) := by decide +kernel
theorem test_decode_jpV0 : decode 0xB300 = .instr (.jpV0 0x300) := by decide +kernel
theorem test_decode_rnd : decode 0xC70F = .instr (.rnd 7 0x0F) := by decide +kernel
theorem test_decode_drw : decode 0b1101000100100101 = .instr (.drw 1 2 5) := by decide +kernel
theorem test_decode_skp : decode 0b1110001110011110 = .instr (.skp 3) := by decide +kernel
theorem test_decode_sknp : decode 0xE3A1 = .instr (.sknp 3) := by decide +kernel
theorem test_decode_ldVxDt : decode 0xF307 = .instr (.ldVxDt 3) := by decide +kernel
theorem test_decode_ldVxK : decode 0xF30A = .instr (.ldVxK 3) := by decide +kernel
theorem test_decode_ldDtVx : decode 0xF315 = .instr (.ldDtVx 3) := by decide +kernel
theorem test_decode_ldStVx : decode 0b1111001100011000 = .instr (.ldStVx 3) := by decide +kernel
theorem test_decode_addI : decode 0xF31E = .instr (.addI 3) := by decide +kernel
theorem test_decode_ldF : decode 0xF329 = .instr (.ldF 3) := by decide +kernel
theorem test_decode_ldB : decode 0xF333 = .instr (.ldB 3) := by decide +kernel
theorem test_decode_storeRegs : decode 0xF355 = .instr (.storeRegs 3) := by decide +kernel
theorem test_decode_loadRegs : decode 0xF365 = .instr (.loadRegs 3) := by decide +kernel

/-- The illegal words of spec/95_test_vectors.md 2.1. -/
theorem test_decode_illegal0 : decode 0x0000 = .illegal .family0 ∧ decode 0x00E1 = .illegal .family0 ∧
    decode 0x0123 = .illegal .family0 := by decide +kernel
theorem test_decode_illegal8 : decode 0x8128 = .illegal .family8 ∧ decode 0x812D = .illegal .family8 ∧
    decode 0x812F = .illegal .family8 := by decide +kernel
theorem test_decode_illegalE : decode 0xE30E = .illegal .familyE ∧ decode 0xE301 = .illegal .familyE ∧
    decode 0xE39F = .illegal .familyE := by decide +kernel
theorem test_decode_illegalF : decode 0xF300 = .illegal .familyF ∧ decode 0xF31F = .illegal .familyF ∧
    decode 0xF3FF = .illegal .familyF := by decide +kernel

theorem test_decodeBytes_bigEndian : decodeBytes [0x12, 0x34, 0x56] =
    (.instr (.jp 0x234), [0x56]) := by decide +kernel
theorem test_decodeBytes_short : decodeBytes [0x12] = (.illegal .tooShort, [0x12]) := by decide +kernel
theorem test_decodeTableWord : decodeTableWord 16 0xD125 = some (.drw 1 2 5) ∧
    decodeTableWord 16 0xF375 = none := by decide +kernel

/-! Control transfer: spec/95_test_vectors.md 2.2 -/

theorem test_jp : after (run 0x1FFF State.reset) State.pc = some 0xFFF := by decide +kernel
theorem test_call : after (run 0x220A { State.reset with pc := 0x204 }) (fun t => (t.pc, t.stack)) =
    some (0x20A, [0x204]) := by decide +kernel
theorem test_call_seventeenth : faultOf (run 0x2200 (stacked (List.replicate 16 0x200))) =
    some .stackOverflow := by decide +kernel
theorem test_ret : after (run 0x00EE (stacked [0x204, 0x200])) (fun t => (t.pc, t.stack)) =
    some (0x206, [0x200]) := by decide +kernel
theorem test_ret_underflow : faultOf (run 0x00EE State.reset) = some .stackUnderflow := by decide +kernel
theorem test_seImm : after (run 0x3300 (made [])) State.pc = some 0x204 ∧
    after (run 0x3300 (made [(3, 1)])) State.pc = some 0x202 := by decide +kernel
theorem test_sneImm : after (run 0x4307 (made [(3, 7)])) State.pc = some 0x202 ∧
    after (run 0x4308 (made [(3, 7)])) State.pc = some 0x204 := by decide +kernel
theorem test_seReg : after (run 0x5120 (made [(1, 0x10), (2, 0x10)])) State.pc = some 0x204 ∧
    after (run 0x5120 (made [(1, 0x10), (2, 0x11)])) State.pc = some 0x202 := by decide +kernel
theorem test_sneReg : after (run 0x9120 (made [(1, 0x10), (2, 0x11)])) State.pc = some 0x204 ∧
    after (run 0x9110 (made [(1, 7)])) State.pc = some 0x202 := by decide +kernel
theorem test_jpV0 : after (run 0xBFFF (made [(0, 0xFF)])) State.pc = some 0x10FE := by decide +kernel

/-! Loads and ALU operations: the V-ALU rows of spec/95_test_vectors.md 2.3 -/

theorem test_ldImm : after (run 0x6A3C State.reset) (fun t => (t.reg 0xA, t.pc)) =
    some (0x3C, 0x202) := by decide +kernel
theorem test_addImm : after (run 0x71FF (made [(1, 5), (0xF, 7)])) (fun t => (t.reg 1, t.reg 0xF)) =
    some (4, 7) := by decide +kernel
theorem test_addImm_vf : after (run 0x7F01 (made [(0xF, 0xFF)])) (fun t => t.reg 0xF) = some 0 := by decide +kernel
theorem test_ldReg : after (run 0x8120 (made [(1, 9), (2, 0x7E)])) (fun t => (t.reg 1, t.reg 2)) =
    some (0x7E, 0x7E) := by decide +kernel
theorem test_orReg : after (run 0x8121 (made [(1, 0xF0), (2, 0x0F), (0xF, 1)])) (fun t => (t.reg 1, t.reg 0xF)) =
    some (0xFF, 1) := by decide +kernel
theorem test_andReg : after (run 0x8122 (made [(1, 0xF3), (2, 0x3F), (0xF, 1)]))
    (fun t => (t.reg 1, t.reg 0xF)) = some (0x33, 1) := by decide +kernel
theorem test_xorReg : after (run 0x8123 (made [(1, 0xFF), (2, 0x0F), (0xF, 1)]))
    (fun t => (t.reg 1, t.reg 0xF)) = some (0xF0, 1) := by decide +kernel
theorem test_addReg : after (run 0x8124 (made [(1, 0xFF), (2, 1)])) (fun t => (t.reg 1, t.reg 0xF)) = some (0, 1) ∧
    after (run 0x8124 (made [(0xF, 1)])) (fun t => (t.reg 1, t.reg 0xF)) = some (0, 0) := by decide +kernel
theorem test_addReg_vf : after (run 0x8F14 (made [(0xF, 0xF0), (1, 0x20)])) (fun t => t.reg 0xF) = some 1 ∧
    after (run 0x81F4 (made [(0xF, 1), (1, 5)])) (fun t => (t.reg 1, t.reg 0xF)) = some (6, 0) := by decide +kernel
theorem test_sub : after (run 0x8125 (made [(1, 1), (2, 1)])) (fun t => (t.reg 1, t.reg 0xF)) = some (0, 1) ∧
    after (run 0x8125 (made [(1, 0), (2, 1)])) (fun t => (t.reg 1, t.reg 0xF)) = some (0xFF, 0) := by decide +kernel
theorem test_sub_vf : after (run 0x8F15 (made [(0xF, 5), (1, 3)])) (fun t => t.reg 0xF) = some 0xFE ∧
    after (run 0x81F5 (made [(0xF, 3), (1, 5)])) (fun t => (t.reg 1, t.reg 0xF)) = some (4, 1) := by decide +kernel
theorem test_shr : after (run 0x8126 (made [(1, 3), (2, 0xF0)])) (fun t => (t.reg 1, t.reg 2, t.reg 0xF)) =
    some (1, 0xF0, 1) := by decide +kernel
theorem test_shr_vf : after (run 0x8F06 (made [(0xF, 0xFF)])) (fun t => t.reg 0xF) = some 0 := by decide +kernel
theorem test_subn : after (run 0x8127 (made [(1, 1), (2, 0x10)])) (fun t => (t.reg 1, t.reg 2, t.reg 0xF)) =
    some (0xF, 0x10, 1) ∧
    after (run 0x8127 (made [(1, 7), (2, 7)])) (fun t => (t.reg 1, t.reg 0xF)) = some (0, 1) := by decide +kernel
theorem test_subn_vf : after (run 0x8F17 (made [(0xF, 3), (1, 5)])) (fun t => t.reg 0xF) = some 4 ∧
    after (run 0x81F7 (made [(0xF, 5), (1, 3)])) (fun t => (t.reg 1, t.reg 0xF)) = some (0xFE, 1) := by decide +kernel
theorem test_shl : after (run 0x812E (made [(1, 0x80), (2, 0xF0)])) (fun t => (t.reg 1, t.reg 2, t.reg 0xF)) =
    some (0, 0xF0, 1) := by decide +kernel
theorem test_shl_vf : after (run 0x8F0E (made [(0xF, 0x80)])) (fun t => t.reg 0xF) = some 2 := by decide +kernel
/-- `RND` with the draws of spec/95_test_vectors.md 2.3. -/
theorem test_rnd : (rndWith 0xA7 7 0x0F State.reset).reg 7 = 7 ∧
    (rndWith 0x5C 7 0xFF State.reset).reg 7 = 0x5C := by decide +kernel
theorem test_rnd_step : after (run 0xC700 State.reset) (fun t => (t.pc, t.draws)) =
    some (0x202, 1) := by decide +kernel

/-! Address register and memory: spec/95_test_vectors.md 2.4 -/

theorem test_ldI : after (run 0xA300 State.reset) State.iReg = some 0x300 := by decide +kernel
theorem test_addI : after (run 0xF11E (made [(1, 0xFF), (0xF, 7)] 0xFF00)) (fun t => (t.iReg, t.reg 0xF)) =
    some (0xFFFF, 7) := by decide +kernel
theorem test_addI_overflow : faultOf (run 0xF11E (made [(1, 0xFF)] 0xFF01)) = some .indexOverflow := by decide +kernel
theorem test_ldF : after (run 0xF429 (made [(4, 0xA)])) State.iReg = some 0x32 ∧
    after (run 0xF429 (made [(4, 0xFF)])) State.iReg = some 0x4FB := by decide +kernel
theorem test_ldB : after (run 0xF033 (made [(0, 0xFE)] 0x300)) (fun t => value (t.readBytes 0x300 3)) =
    some (some [2, 5, 4]) := by decide +kernel
theorem test_ldB_fault : faultOf (run 0xF033 (made [(0, 0x7B)] 0xFFE)) = some (.addressRange 0x1000) ∧
    faultOf (run 0xF033 (made [] 0x1010)) = some (.addressRange 0x1010) := by decide +kernel
theorem test_storeRegs : after (run 0xF055 (made [(0, 0x77), (1, 0x88)] 0x400))
    (fun t => (value (t.readBytes 0x400 2), t.iReg)) = some (some [0x77, 0], 0x400) := by decide +kernel
theorem test_storeRegs_fault : faultOf (run 0xFF55 (made ladder 0xFF1)) = some (.addressRange 0x1000) ∧
    after (run 0xFE55 (made ladder 0xFF1)) (fun t => value (t.readBytes 0xFFE 2)) =
      some (some [0xAD, 0xAE]) := by decide +kernel
theorem test_loadRegs : after (run 0xF265 (made [(3, 9)] 0x400 [0x11, 0x22, 0x33, 0x44]))
    (fun t => (t.reg 0, t.reg 1, t.reg 2, t.reg 3, t.iReg)) = some (0x11, 0x22, 0x33, 9, 0x400) := by decide +kernel
theorem test_loadRegs_fault : faultOf (run 0xF265 (made [] 0xFFE [1, 2])) = some (.addressRange 0x1000) ∧
    after (run 0xF165 (made [(2, 9)] 0xFFE [1, 2])) (fun t => (t.reg 0, t.reg 1, t.reg 2)) =
      some (1, 2, 9) := by decide +kernel

/-! Display: spec/95_test_vectors.md 1 (S6) and 2.5 -/

theorem test_cls : after (run 0x00E0 { made [(0xF, 1)] with disp := clearDisplay.setPixel 3 4 true })
    (fun t => (lit t, t.reg 0xF)) = some ([], 1) := by decide +kernel
theorem test_drw_wraps : after (run 0xD011 (made [(0, 0x3F)] 0x300 [0xFF])) (fun t => (lit t, t.reg 0xF)) =
    some ([(0, 0), (1, 0), (2, 0), (3, 0), (4, 0), (5, 0), (6, 0), (63, 0)], 0) := by decide +kernel
/-- The vertical wrap: rows 80 40 20 at (10, 30). -/
theorem test_drw_rows : after (run 0xD013 (made [(0, 0xA), (1, 0x1E)] 0x300 [0x80, 0x40, 0x20])) lit =
    some [(12, 0), (10, 30), (11, 31)] := by decide +kernel

/-! Keypad and timers: spec/95_test_vectors.md 2.6 -/

theorem test_skp : after (run 0xE39E (pressing [0xB] (made [(3, 0xB)]))) State.pc = some 0x204 ∧
    after (run 0xE39E (made [(3, 0xB)])) State.pc = some 0x202 := by decide +kernel
theorem test_skp_range : faultOf (run 0xE09E (made [(0, 0x10)])) = some (.keyRange 0x10) := by decide +kernel
theorem test_sknp : after (run 0xE3A1 (pressing [0xB] (made [(3, 0xB)]))) State.pc = some 0x202 ∧
    after (run 0xE3A1 (made [(3, 0xB)])) State.pc = some 0x204 := by decide +kernel
theorem test_sknp_range : faultOf (run 0xE0A1 (made [(0, 0xFF)])) = some (.keyRange 0xFF) := by decide +kernel
theorem test_ldVxK_stalled : after (run 0xF30A { State.reset with dt := 3, st := 2 })
    (fun t => (t.pc, t.reg 3, t.dt, t.st)) = some (0x200, 0, 2, 1) := by decide +kernel
theorem test_ldVxK : after (run 0xF30A (pressing [0xB, 7])) (fun t => (t.pc, t.reg 3, t.key 0xB)) =
    some (0x202, 0xB, true) := by decide +kernel
theorem test_ldVxDt : after (run 0xF507 { State.reset with dt := 4 }) (fun t => (t.reg 5, t.dt)) =
    some (4, 3) := by decide +kernel
theorem test_ldDtVx : after (run 0xF215 { made [(2, 0xFF)] with st := 1 }) (fun t => (t.dt, t.st)) =
    some (0xFE, 0) := by decide +kernel
theorem test_ldStVx : after (run 0xF218 (made [(2, 3)])) (fun t => (t.st, t.tone)) =
    some (2, true) := by decide +kernel

/-! The step and the host: spec/95_test_vectors.md 2.7 and S1 -/

theorem test_step_reset : faultOf (step State.reset) = some (.decodeError 0x0000) := by decide +kernel
theorem test_fetch_range : errorOf { State.reset with pc := 0xFFF }.fetch = some (.addressRange 0x1000) ∧
    errorOf { State.reset with pc := 0xFFFF }.fetch = some (.addressRange 0xFFFF) := by decide +kernel
theorem test_fetch_odd : value { made [] 0x203 [0x61, 0x07] with pc := 0x203 }.fetch =
    some 0x6107 := by decide +kernel
theorem test_loadROM : (value (State.reset.loadROM [0x6A, 0x3C])).map
    (fun t => (after (step t) fun u => u.reg 0xA)) = some (some 0x3C) := by decide +kernel
/-- The font's glyph 7, the default of R34. -/
theorem test_font_seven : value (State.reset.readBytes 0x23 5) =
    some [0xF0, 0x10, 0x20, 0x40, 0x40] := by decide +kernel

/-! Witnesses: for every obligation with hypotheses, and for each of its clauses,
    a state and operands that meet them. A
hypothesis `exec i s = .next t` or `step s = .next t` is met where `completes` says so (`completes_iff`). -/

/-- O1: PC above 4095; PC = 4095; an illegal word; a completed handler; a faulting one. -/
theorem witness_StepFetchesDecodesExecutesTicks :
    errorOf ({ State.reset with pc := 0x1000 }.readByte 0x1000) = some (.addressRange 0x1000) ∧
    value ({ State.reset with pc := 0xFFF }.readByte 0xFFF) = some 0 ∧
    errorOf ({ State.reset with pc := 0xFFF }.readByte 0x1000) = some (.addressRange 0x1000) ∧
    (value (State.reset.readByte 0x200) = some 0 ∧ value (State.reset.readByte 0x201) = some 0 ∧
      decode (bigEndian 0 0) = .illegal .family0) ∧
    (value ((State.reset.withFetchWord 16 0x6A3C).readByte 0x200) = some 0x6A ∧
      value ((State.reset.withFetchWord 16 0x6A3C).readByte 0x201) = some 0x3C ∧
      decode (bigEndian 0x6A 0x3C) = .instr (.ldImm 0xA 0x3C) ∧
      completes (exec (.ldImm 0xA 0x3C) (State.reset.withFetchWord 16 0x6A3C)) = true) ∧
    value ((State.reset.withFetchWord 16 0x00EE).readByte 0x200) = some 0 ∧
    value ((State.reset.withFetchWord 16 0x00EE).readByte 0x201) = some 0xEE ∧
    decode (bigEndian 0x00 0xEE) = .instr .ret ∧
    faultOf (exec .ret (State.reset.withFetchWord 16 0x00EE)) = some .stackUnderflow := by
  decide +kernel

/-- O2: PC = 4094, 4095, 4096 and 65535; ROMs of 0, 1 and 3584 bytes. -/
theorem witness_FetchIsBigEndianAtPc :
    (0xFFE : Word).toNat ≤ 4094 ∧ (0xFFF : Word).toNat = 4095 ∧ 4095 < (0x1000 : Word).toNat ∧
    4095 < (0xFFFF : Word).toNat ∧ (value (State.reset.loadROM [])).isSome = true ∧
    (value (State.reset.loadROM [0x12])).isSome = true ∧ decode (bigEndian 0x12 0) = .instr (.jp 0x200) ∧
    (List.replicate 3584 (0xAB : Byte)).length ≤ 3584 := by decide +kernel

/-- O3 to O5: for each row of the opcode table a word that matches under its mask, with all other bits 1. -/
theorem witness_DecodesTo :
    (∀ p ∈ [0x1000, 0x2000, 0x3000, 0x4000, 0x5000, 0x6000, 0x7000, 0x9000, 0xA000, 0xB000, 0xC000, 0xD000],
      (p ||| 0x0FFF : Word) &&& 0xF000 = p) ∧
    (∀ p ∈ [0x8000, 0x8001, 0x8002, 0x8003, 0x8004, 0x8005, 0x8006, 0x8007, 0x800E],
      (p ||| 0x0FF0 : Word) &&& 0xF00F = p) ∧
    ∀ p ∈ [0x00E0, 0x00EE, 0xE09E, 0xE0A1, 0xF007, 0xF00A, 0xF015, 0xF018, 0xF01E, 0xF029, 0xF033, 0xF055, 0xF065],
      (p ||| 0x0F00 : Word) &&& 0xF0FF = p := by
  simp only [List.forall_mem_cons, List.not_mem_nil, false_implies, implies_true, and_true]
  decide +kernel

/-- O7 and O8: the largest NNN, the largest fields, and a word with ignored bits set. -/
theorem witness_DecodeOfEncode : (Instr.jpV0 0xFFF).WellFormed ∧ (Instr.drw 0xF 0xF 0xF).WellFormed ∧
    decode 0x5127 = .instr (.seReg 1 2) := by decide +kernel

/-- O10: a completed step of each named instruction, the timers at 0 and at 255; a stalled wait. -/
theorem witness_TimersTickAfterTheHandler :
    completes (run 0x8000 { State.reset with dt := 0xFF, st := 0 }) = true ∧
      completes (run 0xF215 (made [(2, 0xFF)])) = true ∧
    completes (run 0xF218 (made [(2, 0)])) = true ∧ completes (run 0xF507 { State.reset with dt := 4 }) = true ∧
    completes (run 0xF30A State.reset) = true ∧ ∀ k, State.reset.key k = false := by decide +kernel

/-- O12: a state with 15 stack entries and a byte in memory, from which a `CALL` completes. -/
theorem witness_StepKeepsStateWf :
    ((stacked (List.replicate 15 0x200)).withFetchWord 16 0x2200).wf ∧
      completes (run 0x2200 (stacked (List.replicate 15 0x200))) = true := by decide +kernel

/-- O14: PC at the bound of a jump, and a return to the highest pushed PC. -/
theorem witness_StepKeepsPcBounds :
    ((made [(0, 0xFF)]).withFetchWord 16 0xBFFF).pcBounded ∧ completes (run 0xBFFF (made [(0, 0xFF)])) = true ∧
    ((stacked [0xFFE]).withFetchWord 16 0x00EE).pcBounded ∧ completes (run 0x00EE (stacked [0xFFE])) = true :=
  ⟨⟨by decide, fun t h => absurd h List.not_mem_nil⟩, by decide +kernel,
    ⟨by decide, fun t h => by rw [List.mem_singleton.mp h]; decide⟩, by decide +kernel⟩

/-- O16: a state for each cause of a fault, and one that completes. -/
theorem witness_StepFaultsExactlyOnTheirCauses :
    faultOf (step { State.reset with pc := 0xFFF }) = some (.addressRange 0x1000) ∧
    faultOf (run 0xD012 (made [] 0xFFF)) = some (.addressRange 0x1000) ∧
    faultOf (step State.reset) = some (.decodeError 0) ∧ faultOf (run 0x00EE State.reset) = some .stackUnderflow ∧
    faultOf (run 0x2200 (stacked (List.replicate 16 0))) = some .stackOverflow ∧
    faultOf (run 0xE09E (made [(0, 0x10)])) = some (.keyRange 0x10) ∧
    faultOf (run 0xF11E (made [(1, 1)] 0xFFFF)) = some .indexOverflow ∧
      completes (run 0x1200 State.reset) = true := by
  decide +kernel

/-- O17: an instruction outside the column "Raised by". -/
theorem witness_OtherInstructionsNeverFault : mayFault .cls = false ∧ mayFault (.ldVxK 0xF) = false := by decide

/-- O18: instructions that complete, and a piece they may not write. -/
theorem witness_PiecesChangeOnlyByTheirWriters :
    completes (exec (.ldB 0) (made [] 0xFFD)) = true ∧ Piece.iReg ∉ writtenPieces (.ldB 0) ∧
    completes (exec (.ldVxK 3) (pressing [0xB])) = true ∧ Piece.keys ∉ writtenPieces (.ldVxK 3) := by decide +kernel

/-- O19: an instruction that writes no flag, and each flag writer, with VF no destination. -/
theorem witness_OnlyFlagWritersTouchVf :
    completes (exec (.addImm 1 0xFF) State.reset) = true ∧ flagWriter (.addImm 1 0xFF) = false ∧
      vf ∉ destinations (.addImm 1 0xFF) ∧
    completes (exec (.loadRegs 0xE) State.reset) = true ∧ vf ∉ destinations (.loadRegs 0xE) ∧
    (∀ i ∈ [Instr.addReg 1 0xF, Instr.sub 1 0xF, Instr.shr 0xE, Instr.subn 1 2, Instr.shl 0, Instr.drw 0xF 0xF 0],
      completes (exec i State.reset) = true ∧ flagWriter i = true ∧ vf ∉ destinations i) := by
  simp only [List.forall_mem_cons, List.not_mem_nil, false_implies, implies_true, and_true]
  decide +kernel

/-- O20: each row of the table of R14 completes, the key wait in both its ways, jumps to the last address. -/
theorem witness_PcAfterTheHandler :
    (∀ i ∈ [Instr.jp 0xFFF, .call 0xFFF, .jpV0 0xFFF, .seImm 0 0, .sneImm 0 0, .seReg 0 1, .sneReg 0 1, .skp 0,
      .sknp 0, .ldVxK 0, .cls, .storeRegs 0xF], i.WellFormed ∧ completes (exec i State.reset) = true) ∧
    Instr.ret.WellFormed ∧ completes (exec .ret (stacked [0x200])) = true ∧
      completes (exec (.ldVxK 0) (pressing [0xF])) = true ∧
    (pressing [0xF]).key 0xF = true ∧ State.reset.key 0xF = false := by
  simp only [List.forall_mem_cons, List.not_mem_nil, false_implies, implies_true, and_true]
  decide +kernel

/-- O21: a step that draws nothing, one that faults, one that draws. -/
theorem witness_OnlyRndDependsOnTheDraw :
    value (State.reset.withFetchWord 16 0x6A3C).fetchDecode = some (.ldImm 0xA 0x3C) ∧
      completes (run 0x6A3C State.reset) = true ∧
    value (State.reset.withFetchWord 16 0x00EE).fetchDecode = some .ret ∧
      faultOf (run 0x00EE State.reset) = some .stackUnderflow ∧
    value (State.reset.withFetchWord 16 0xC7FF).fetchDecode = some (.rnd 7 0xFF) := by decide +kernel

/-- O22: V0 and V1 stored at 0xFFE, the last address a fetch can be made from; V14 and V15 stored at the end. -/
theorem witness_StoreIsSeenByTheNextFetch :
    completes (exec (.storeRegs 1) (made [(0, 0x12), (1, 0x0A)] 0xFFE)) = true ∧ 0 + 1 ≤ (1 : Reg).val ∧
    (0xFFE : Word).toNat = (made [(0, 0x12), (1, 0x0A)] 0xFFE).iReg.toNat + 0 ∧
    completes (exec (.storeRegs 0xF) (made ladder 0xFF0)) = true ∧ 14 + 1 ≤ (0xF : Reg).val ∧
    (0xFFE : Word).toNat = (made ladder 0xFF0).iReg.toNat + 14 := by decide +kernel

/-- O23 and O36: room for the last entry; no room. -/
theorem witness_CallPushesItsOwnAddress :
    (stacked (List.replicate 15 0x200)).sp < 16 ∧ 16 ≤ (stacked (List.replicate 16 0x200)).sp := by decide +kernel

/-- O24: `JP 200` at 0x200. -/
theorem witness_ParkedStaysParked : value (State.reset.withFetchWord 16 0x1200).fetchDecode =
    some (.jp (State.reset.withFetchWord 16 0x1200).pc) := by
  decide +kernel

/-- O25: the last address and the first beyond it. -/
theorem witness_MemReadAndMemWrite : 4095 ≤ 4095 ∧ 4095 < 4096 := by decide

/-- O26 and O34: an empty stack and a full one, with its last slot. -/
theorem witness_PopTakesTheLastSlot :
    State.reset.sp = 0 ∧ (stacked (0x2AA :: List.replicate 15 0x200)).sp = 15 + 1 ∧
      (stacked (0x2AA :: List.replicate 15 0x200)).slot 15 = some 0x2AA := by decide +kernel

/-- O28: the longest ROM and one byte more. -/
theorem witness_LoadRomOperation :
    (List.replicate 3584 (0xAB : Byte)).length ≤ 3584 ∧
      3584 < (List.replicate 3585 (0xAB : Byte)).length := by decide +kernel

/-- O29: the last key and the first index that is none. -/
theorem witness_SetKeyStateOperation : (15 : Reg).val = 15 ∧ 15 < 16 := by decide

/-- O31 and O33: a state with the invariant, and operations that end in a state. -/
theorem witness_HostRunKeepsStateWf :
    (made ladder 0x300 [1, 2]).wf ∧
      completes (hostRun [.setKeyState 16 true, .step, .loadROM [0x12], .step, .reset]
        (made ladder 0x300 [1, 2])) = true := by
  decide +kernel

/-- O32: a step that faults. -/
theorem witness_FaultLeavesTheStateUnchanged : faultOf (step State.reset) = some (.decodeError 0) := by decide +kernel

/-- O35: the largest NNN. -/
theorem witness_JumpsSetPc : (0xFFF : Word).toNat ≤ 0xFFF := by decide

/-- O37 and O38: equal and unequal operands. -/
theorem witness_Skips :
    (made [(3, 7)]).reg 3 = 7 ∧ (made [(3, 7)]).reg 3 ≠ 8 ∧ (made [(3, 7)]).reg 3 ≠ (made [(3, 7)]).reg 4 ∧
      (made [(3, 7), (4, 7)]).reg 3 = (made [(3, 7), (4, 7)]).reg 4 := by decide

/-- O41 to O43: a destination that is not VF, and VF. -/
theorem witness_FlagDestinations : (1 : Reg) ≠ vf ∧ (0xF : Reg) = vf := by decide

/-- O44: every form with VF as an operand completes. -/
theorem witness_VfAsAnOperand :
    (0xE : Reg) ≠ vf ∧ ∀ i ∈ [Instr.addReg vf 0xE, .addReg 0xE vf, .addReg vf vf, .sub vf 0xE, .sub 0xE vf,
      .sub vf vf, .subn vf 0xE, .subn 0xE vf, .subn vf vf], completes (exec i (made [(0xF, 7)])) = true := by
  simp only [List.forall_mem_cons, List.not_mem_nil, false_implies, implies_true, and_true]
  decide +kernel

/-- O47: the largest sum, and one more. -/
theorem witness_AddToI :
    (made [(1, 0xFF)] 0xFF00).iReg.toNat + ((made [(1, 0xFF)] 0xFF00).reg 1).toNat ≤ 0xFFFF ∧
      0xFFFF < (made [(1, 0xFF)] 0xFF01).iReg.toNat + ((made [(1, 0xFF)] 0xFF01).reg 1).toNat := by decide

/-- O48 to O50: the last block that fits, and one address further. -/
theorem witness_Blocks :
    (made [] 0xFFD).iReg.toNat + 2 ≤ 4095 ∧ 4095 < (made [] 0xFFE).iReg.toNat + 2 ∧
      (made [] 0xFF0).iReg.toNat + (15 : Reg).val ≤ 4095 ∧
        4095 < (made [] 0xFF1).iReg.toNat + (15 : Reg).val := by decide

/-- O52: no row with I beyond memory; the last row that fits; one row further. -/
theorem witness_DrawSprite_range :
    (0 : Fin 16).val = 0 ∧ (made [] 0xFFF).iReg.toNat + (1 : Fin 16).val ≤ 4096 ∧
      (2 : Fin 16).val ≠ 0 ∧ 4096 < (made [] 0xFFF).iReg.toNat + (2 : Fin 16).val := by decide

/-- O52 and O53: the wrapped pixel (0, 0) lies under the sprite FF at (63, 0) and is set; the pixel (1, 0) is not. -/
theorem witness_DrawSprite_under :
    let s := { made [(0, 0x3F)] 0x300 [0xFF] with disp := clearDisplay.setPixel 0 0 true }
    s.reg 0 = 63 ∧ s.reg 1 = 0 ∧ UnderSprite s 63 0 1 0 0 ∧ s.disp.pixel 0 0 = true ∧
      UnderSprite s 63 0 1 0 1 ∧ s.disp.pixel 0 1 = false ∧ completes (exec (.drw 0 1 1) s) = true :=
  ⟨by decide, by decide, ⟨0, 1, by decide, by decide, ⟨0xFF, rfl, by decide⟩, by decide, by decide⟩, by decide,
    ⟨0, 2, by decide, by decide, ⟨0xFF, rfl, by decide⟩, by decide, by decide⟩, by decide +kernel⟩

/-- O52: on a clear display nothing under the sprite is set. -/
theorem witness_DrawSprite_noCollision (py : Fin 32) (px : Fin 64) :
    (made [(0, 0x3F)] 0x300 [0xFF]).disp.pixel py px = false := clearDisplay_pixel py px

/-- O52: with no row, no pixel lies under the sprite. -/
theorem witness_DrawSprite_notUnder (py : Fin 32) (px : Fin 64) : ¬ UnderSprite State.reset 0 0 0 py px := by
  rintro ⟨r, c, h, -⟩
  exact Nat.not_lt_zero r h

/-- O54: the last key, pressed and not; a value beyond it. -/
theorem witness_SkipsOnKeys :
    (0xF : Reg).val = ((made [(3, 0xF)]).reg 3).toNat ∧ (pressing [0xF]).key 0xF = true ∧
      State.reset.key 0xF = false ∧
      15 < ((made [(3, 0x10)]).reg 3).toNat := by decide

/-- O56: the highest of two pressed keys; no key. -/
theorem witness_KeyWait :
    (pressing [7, 0xB]).key 0xB = true ∧ (∀ j, 0xB < j → (pressing [7, 0xB]).key j = false) ∧
      ∀ k, State.reset.key k = false := by decide +kernel

end Sys2Proof.Tests
end

section
/-! PROOFS. The family 10_state.md: what a completed handler can be, the frame of every instruction, PC after the
handler, and from these the statements about the state and its invariants. -/

namespace Sys2Proof.Machine

/-! The stack by its slots (R15, R16) -/

/-- Slot SP - 1 holds the most recent entry. -/
theorem State.slot_top {s : State} {a : Word} {as : List Word} (h : s.stack = a :: as) :
    s.slot as.length = some a := by
  simp [State.slot, h]

/-- The slots below the most recent entry are those of the stack without it. -/
theorem State.slot_below {s u : State} {a : Word} (h : s.stack = a :: u.stack) {k : Nat} (hk : k < u.stack.length) :
    u.slot k = s.slot k := by
  have hk : k < u.stack.reverse.length := by simpa using hk
  rw [State.slot, State.slot, h, List.reverse_cons, List.getElem?_append_left hk]

/-! The state after reset (R24) -/

@[simp] theorem State.reset_reg (r : Reg) : State.reset.reg r = 0 := by
  simp [State.reg, State.reset, Vector.get_eq_getElem]

@[simp] theorem State.reset_key (k : Reg) : State.reset.key k = false := by
  simp [State.key, State.reset, Vector.get_eq_getElem]

theorem State.reset_readByte {a : Nat} (h : a < 4096) : State.reset.readByte a = .ok (initialByte a) :=
  State.readByte_of_lt _ h

/-- Settles O11: the font and the zeros after it are what an empty memory list reads as. -/
theorem resetValues : Obligations.ResetValues := by
  refine ⟨State.reset_reg, rfl, rfl, rfl, rfl, rfl, fun a ha => ?_, fun a hlo hhi => ?_, clearDisplay_pixel,
    State.reset_key⟩
  · exact State.reset_readByte (by omega)
  · rw [State.reset_readByte (by omega), initialByte_of_ge hlo]

/-- Settles O13: the reset memory lists nothing and the stack is empty. -/
theorem resetHasStateWf : Obligations.ResetHasStateWf := ⟨Memory.wf_nil, Nat.zero_le _⟩

/-- Settles O15: PC is 0x200 and the stack is empty. -/
theorem resetHasPcBounds : Obligations.ResetHasPcBounds := ⟨by decide, List.forall_mem_nil _⟩

/-! Frames, update by update: a write to a piece or register that the frame names leaves the frame as it was -/

section
variable {ps : List Piece} {rs : List Reg} {s t u : State}

theorem Piece.Same.symm {p : Piece} (h : p.Same s t) : p.Same t s := by
  cases p with
  | memory => exact fun a => (h a).symm
  | display => exact fun y x => (h y x).symm
  | keys => exact fun k => (h k).symm
  | iReg | stack | delay | sound | draws => exact Eq.symm h

theorem Piece.Same.trans {p : Piece} (h : p.Same s t) (h' : p.Same t u) : p.Same s u := by
  cases p with
  | memory => exact fun a => (h' a).trans (h a)
  | display => exact fun y x => (h' y x).trans (h y x)
  | keys => exact fun k => (h' k).trans (h k)
  | iReg | stack | delay | sound | draws => exact Eq.trans h' h

theorem KeepsExcept.symm (h : KeepsExcept ps rs s t) : KeepsExcept ps rs t s :=
  ⟨fun p hp => (h.1 p hp).symm, fun r hr => (h.2 r hr).symm⟩

theorem KeepsExcept.trans (h : KeepsExcept ps rs s t) (h' : KeepsExcept ps rs t u) : KeepsExcept ps rs s u :=
  ⟨fun p hp => (h.1 p hp).trans (h'.1 p hp), fun r hr => (h'.2 r hr).trans (h.2 r hr)⟩

/-- An update that itself keeps the frame may be left out. -/
theorem KeepsExcept.congr_right (h : KeepsExcept ps rs t u) : KeepsExcept ps rs s u ↔ KeepsExcept ps rs s t :=
  ⟨fun hu => hu.trans h.symm, fun ht => ht.trans h⟩

@[simp] theorem keepsExcept_advance (k : Word) : KeepsExcept ps rs s (t.advance k) ↔ KeepsExcept ps rs s t :=
  KeepsExcept.congr_right (by apply KeepsExcept.of_fields <;> simp)

@[simp] theorem keepsExcept_jump (a : Word) : KeepsExcept ps rs s (t.jump a) ↔ KeepsExcept ps rs s t :=
  KeepsExcept.congr_right (by apply KeepsExcept.of_fields <;> simp)

@[simp] theorem keepsExcept_setReg {r : Reg} (hr : r ∈ rs) (v : Byte) :
    KeepsExcept ps rs s (t.setReg r v) ↔ KeepsExcept ps rs s t := by
  have hne : ∀ q, q ∉ rs → (t.setReg r v).reg q = t.reg q :=
    fun q hq => t.setReg_reg_ne r v q fun e => hq (e ▸ hr)
  exact KeepsExcept.congr_right (by apply KeepsExcept.of_fields (hregs := hne) <;> simp)

@[simp] theorem keepsExcept_setFlag (hr : vf ∈ rs) (v : Byte) :
    KeepsExcept ps rs s (t.setFlag v) ↔ KeepsExcept ps rs s t := keepsExcept_setReg hr v

@[simp] theorem keepsExcept_setI (hp : .iReg ∈ ps) (v : Word) :
    KeepsExcept ps rs s (t.setI v) ↔ KeepsExcept ps rs s t :=
  KeepsExcept.congr_right (by apply KeepsExcept.of_fields <;> simp [hp])

@[simp] theorem keepsExcept_setDisplay (hp : .display ∈ ps) (d : Display) :
    KeepsExcept ps rs s (t.setDisplay d) ↔ KeepsExcept ps rs s t :=
  KeepsExcept.congr_right (by apply KeepsExcept.of_fields <;> simp [hp])

@[simp] theorem keepsExcept_countDraw (hp : .draws ∈ ps) :
    KeepsExcept ps rs s t.countDraw ↔ KeepsExcept ps rs s t :=
  KeepsExcept.congr_right (by apply KeepsExcept.of_fields <;> simp [hp])

/-! The handlers of `RET`, `CALL`, `LD DT`, `LD ST` and of the two stores write these fields directly. -/

theorem keepsExcept_withStack (hp : .stack ∈ ps) (l : List Word) (a : Word) :
    KeepsExcept ps rs s { s with stack := l, pc := a } := by
  apply KeepsExcept.of_fields <;> simp [hp, State.reg]

theorem keepsExcept_withDt (hp : .delay ∈ ps) (v : Byte) : KeepsExcept ps rs s { s with dt := v } := by
  apply KeepsExcept.of_fields <;> simp [hp, State.reg]

theorem keepsExcept_withSt (hp : .sound ∈ ps) (v : Byte) : KeepsExcept ps rs s { s with st := v } := by
  apply KeepsExcept.of_fields <;> simp [hp, State.reg]

theorem keepsExcept_withMem (hp : .memory ∈ ps) (m : Memory) : KeepsExcept ps rs s { s with mem := m } := by
  apply KeepsExcept.of_fields <;> simp [hp, State.reg]

/-- A block load keeps everything but registers, and of these the ones above the block. -/
theorem keepsExcept_setRegs (vs : List Byte) (hl : vs.length ≤ 16) (hr : ∀ r : Reg, r.val < vs.length → r ∈ rs) :
    KeepsExcept ps rs s (s.setRegs 0 vs) := by
  have hregs : ∀ r, r ∉ rs → (s.setRegs 0 vs).reg r = s.reg r := fun r hrs => by
    rw [State.setRegs_reg _ _ _ (by omega), if_neg fun hlt => hrs (hr r (by omega))]
  rw [State.setRegs_eq] at hregs ⊢
  exact .of_fields (fun _ => rfl) (fun _ => rfl) (fun _ => rfl) (fun _ => rfl) (fun _ => rfl) (fun _ => rfl)
    (fun _ => rfl) (fun _ => rfl) hregs

end

/-! What a completed handler is, for each instruction that may fault or wait -/

section
variable {s t : State} {x : Reg}

theorem exec_ret_next (h : exec .ret s = .next t) :
    ∃ a as, s.stack = a :: as ∧ t = { s with stack := as, pc := a + 2 } := by
  cases hs : s.stack with
  | nil => rw [execRet_nil hs] at h; cases h
  | cons a as => rw [execRet_cons hs] at h; cases h; exact ⟨a, as, rfl, rfl⟩

theorem exec_call_next {nnn : Word} (h : exec (.call nnn) s = .next t) :
    s.stack.length < 16 ∧ t = { s with stack := s.pc :: s.stack, pc := nnn } := by
  by_cases hs : s.stack.length < 16
  · rw [execCall_of_lt nnn hs] at h; cases h; exact ⟨hs, rfl⟩
  · rw [execCall_of_ge nnn (Nat.not_lt.mp hs)] at h; cases h

theorem exec_addI_next (h : exec (.addI x) s = .next t) :
    s.iReg.toNat + (s.reg x).toNat ≤ 0xFFFF ∧ t = (s.setI (s.iReg + zext (s.reg x))).advance 2 := by
  by_cases hs : s.iReg.toNat + (s.reg x).toNat ≤ 0xFFFF
  · rw [execAddI_of_le x hs] at h; cases h; exact ⟨hs, rfl⟩
  · rw [execAddI_of_gt x (Nat.not_le.mp hs)] at h; cases h

theorem exec_ldB_next (h : exec (.ldB x) s = .next t) : s.iReg.toNat + 3 ≤ 4096 ∧
    t = State.advance { s with mem := s.mem.setBytes s.iReg.toNat (decimalDigits (s.reg x)) } 2 := by
  rw [execLdB_eq] at h
  split at h <;> cases h
  exact ⟨‹_›, rfl⟩

theorem exec_storeRegs_next (h : exec (.storeRegs x) s = .next t) : s.iReg.toNat + (x.val + 1) ≤ 4096 ∧
    t = State.advance { s with mem := s.mem.setBytes s.iReg.toNat (s.regsUpTo x) } 2 := by
  rw [execStoreRegs_eq] at h
  split at h <;> cases h
  exact ⟨‹_›, rfl⟩

theorem exec_loadRegs_next (h : exec (.loadRegs x) s = .next t) : s.iReg.toNat + (x.val + 1) ≤ 4096 ∧
    t = (s.setRegs 0 ((List.range (x.val + 1)).map fun k => s.mem.get (s.iReg.toNat + k))).advance 2 := by
  rw [execLoadRegs_eq] at h
  split at h <;> cases h
  exact ⟨‹_›, rfl⟩

/-- A completed `DRW` wrote a flag and a display, and nothing else but PC. -/
theorem exec_drw_next {y : Reg} {n : Fin 16} (h : exec (.drw x y n) s = .next t) :
    ∃ b d, t = ((s.setFlag (flagByte b)).setDisplay d).advance 2 := by
  rw [execDrw_eq] at h
  split at h <;> cases h
  exact ⟨_, _, rfl⟩

theorem exec_skp_next (h : exec (.skp x) s = .next t) :
    ∃ k : Reg, k.val = (s.reg x).toNat ∧ t = s.advance (if s.key k then 4 else 2) := by
  by_cases hk : (s.reg x).toNat < 16
  · rw [execSkp_of_lt (k := ⟨_, hk⟩) rfl] at h; cases h; exact ⟨⟨_, hk⟩, rfl, rfl⟩
  · rw [execSkp_of_ge (by omega)] at h; cases h

theorem exec_sknp_next (h : exec (.sknp x) s = .next t) :
    ∃ k : Reg, k.val = (s.reg x).toNat ∧ t = s.advance (if !s.key k then 4 else 2) := by
  by_cases hk : (s.reg x).toNat < 16
  · rw [execSknp_of_lt (k := ⟨_, hk⟩) rfl] at h; cases h; exact ⟨⟨_, hk⟩, rfl, rfl⟩
  · rw [execSknp_of_ge (by omega)] at h; cases h

theorem exec_ldVxK_next (h : exec (.ldVxK x) s = .next t) :
    ((∀ k, s.key k = false) ∧ t = s) ∨
      ∃ k, s.key k = true ∧ t = (s.setReg x (BitVec.ofNat 8 k.val)).advance 2 := by
  by_cases hk : ∀ k, s.key k = false
  · rw [execLdVxK_none hk] at h; cases h; exact .inl ⟨hk, rfl⟩
  · obtain ⟨k, hk, hmax⟩ := exists_highest_key hk
    rw [execLdVxK_some hk hmax] at h; cases h; exact .inr ⟨k, hk, rfl⟩

end

/-! The frame of every instruction (R10, R11, R12, R15, R19, R20, R21, R30) -/

/-- The general registers an instruction may change: those it names as its destination (R10), and VF if it is one of
the six flag writers (R11). -/
def writtenRegs (i : Instr) : List Reg := if flagWriter i then vf :: destinations i else destinations i

/-- A completed instruction keeps every piece and every register but those it is given to change. -/
theorem exec_frame {i : Instr} {s t : State} (h : exec i s = .next t) :
    KeepsExcept (writtenPieces i) (writtenRegs i) s t := by
  unfold writtenPieces writtenRegs flagWriter destinations
  cases i with
  | ret =>
    obtain ⟨a, as, -, rfl⟩ := exec_ret_next h
    exact keepsExcept_withStack (by simp) as (a + 2)
  | call nnn =>
    obtain ⟨-, rfl⟩ := exec_call_next h
    exact keepsExcept_withStack (by simp) (s.pc :: s.stack) nnn
  | addI x =>
    obtain ⟨-, rfl⟩ := exec_addI_next h
    simp [KeepsExcept.refl]
  | ldB x =>
    obtain ⟨-, rfl⟩ := exec_ldB_next h
    simp [keepsExcept_withMem]
  | storeRegs x =>
    obtain ⟨-, rfl⟩ := exec_storeRegs_next h
    simp [keepsExcept_withMem]
  | loadRegs x =>
    obtain ⟨-, rfl⟩ := exec_loadRegs_next h
    rw [keepsExcept_advance]
    refine keepsExcept_setRegs _ ?_ fun r hr => ?_
    · simp
    · rw [List.length_map, List.length_range, Nat.lt_succ_iff] at hr
      simpa using hr
  | drw x y n =>
    obtain ⟨b, d, rfl⟩ := exec_drw_next h
    simp [KeepsExcept.refl]
  | skp x =>
    obtain ⟨k, -, rfl⟩ := exec_skp_next h
    simp [KeepsExcept.refl]
  | sknp x =>
    obtain ⟨k, -, rfl⟩ := exec_sknp_next h
    simp [KeepsExcept.refl]
  | ldVxK x =>
    obtain ⟨-, rfl⟩ | ⟨k, -, rfl⟩ := exec_ldVxK_next h
    · exact .refl _ _ t
    · simp [KeepsExcept.refl]
  | rnd x nn => cases h; simp [rndWith, KeepsExcept.refl]
  | ldDtVx x => cases h; simp [keepsExcept_withDt]
  | ldStVx x => cases h; simp [keepsExcept_withSt]
  | _ => cases h; simp [KeepsExcept.refl]

/-- Settles O18: a piece outside the written ones is in the frame of its instruction. -/
theorem piecesChangeOnlyByTheirWriters : Obligations.PiecesChangeOnlyByTheirWriters :=
  fun _ _ _ h p hp => (exec_frame h).1 p hp

/-! VF after a flag writer (R11) -/

theorem flagByte_eq_zero_or_one (b : Bool) : flagByte b = 0 ∨ flagByte b = 1 := by
  cases b with
  | false => exact .inl rfl
  | true => exact .inr rfl

theorem and_one_eq_zero_or_one (a : Byte) : a &&& 1 = 0 ∨ a &&& 1 = 1 := by
  have h : (a &&& 1).toNat = a.toNat % 2 := by simp
  bv_omega

/-- A flag written before a result that does not go to VF is still there after it. -/
theorem flag_then_result_vf (s : State) {flag : Byte} (hf : flag = 0 ∨ flag = 1) {x : Reg} (hx : vf ∉ [x])
    (v : Byte) : (((s.setFlag flag).setReg x v).advance 2).reg vf = 0 ∨
      (((s.setFlag flag).setReg x v).advance 2).reg vf = 1 := by
  rwa [State.advance_reg, State.setReg_reg_ne _ _ _ _ (List.ne_of_not_mem_cons hx), State.setFlag_reg_vf]

theorem exec_flagWriter_vf {i : Instr} {s t : State} (h : exec i s = .next t) (hw : flagWriter i = true)
    (hd : vf ∉ destinations i) : t.reg vf = 0 ∨ t.reg vf = 1 := by
  cases i with
  | addReg x y =>
    cases h
    rw [State.advance_reg, State.setFlag_reg_vf]
    exact flagByte_eq_zero_or_one _
  | sub x y | subn x y => cases h; exact flag_then_result_vf s (flagByte_eq_zero_or_one _) hd _
  | shr x | shl x => cases h; exact flag_then_result_vf s (and_one_eq_zero_or_one _) hd _
  | drw x y n =>
    obtain ⟨b, d, rfl⟩ := exec_drw_next h
    rw [State.advance_reg, State.setDisplay_reg, State.setFlag_reg_vf]
    exact flagByte_eq_zero_or_one b
  | _ => cases hw

/-- Settles O19: VF is in the frame of the other instructions; the six leave a flag in it. -/
theorem onlyFlagWritersTouchVf : Obligations.OnlyFlagWritersTouchVf := by
  intro i s t h
  refine ⟨fun hw hd => ?_, exec_flagWriter_vf h⟩
  have hvf : vf ∉ writtenRegs i := by simpa [writtenRegs, hw] using hd
  exact (exec_frame h).2 vf hvf

/-! PC after the handler (R14) -/

/-- PC after a skip: the condition chooses between the two ways on (R88). -/
theorem advance_skip_pc (s : State) {c : Bool} {p : Prop} [Decidable p] (hc : c = true ↔ p) :
    (s.advance (if c then 4 else 2)).pc = if p then s.pc + 4 else s.pc + 2 := by
  by_cases hp : p
  · rw [if_pos hp, if_pos (hc.mpr hp), State.advance_pc]
  · rw [if_neg hp, if_neg (mt hc.mp hp), State.advance_pc]

theorem fits12_iff {nnn : Word} : fits12 nnn = true ↔ nnn.toNat < 4096 := decide_eq_true_iff

/-- The sum of `JP V0,NNN` needs no more than 16 bits (R87). -/
theorem offsetTarget_toNat {nnn : Word} (h : nnn.toNat < 4096) (s : State) :
    (s.offsetTarget nnn).toNat = nnn.toNat + (s.reg 0).toNat :=
  indexSum_toNat (by have := (s.reg 0).isLt; omega)

/-- Settles O20: each row of the table of R14 is read off what its handler leaves; the skips share one choice, and the
sum of `JP V0,NNN` does not wrap. -/
theorem pcAfterTheHandler : Obligations.PcAfterTheHandler := by
  intro i s t hwf h
  cases i with
  | jp nnn => cases h; rfl
  | call nnn =>
    obtain ⟨-, rfl⟩ := exec_call_next h
    exact ⟨rfl, State.slot_top rfl⟩
  | jpV0 nnn =>
    cases h
    have hnnn : nnn.toNat < 4096 := fits12_iff.mp hwf
    have hpc := offsetTarget_toNat hnnn s
    have hv0 := (s.reg 0).isLt
    exact ⟨hpc, by rw [State.jump_pc]; omega⟩
  | ret =>
    obtain ⟨a, as, hs, rfl⟩ := exec_ret_next h
    exact ⟨a, _, State.pop_cons hs, rfl⟩
  | seImm x nn => cases h; exact advance_skip_pc s beq_iff_eq
  | sneImm x nn => cases h; exact advance_skip_pc s bne_iff_ne
  | seReg x y => cases h; exact advance_skip_pc s beq_iff_eq
  | sneReg x y => cases h; exact advance_skip_pc s bne_iff_ne
  | skp x =>
    obtain ⟨k, hk, rfl⟩ := exec_skp_next h
    exact ⟨k, hk, advance_skip_pc s Iff.rfl⟩
  | sknp x =>
    obtain ⟨k, hk, rfl⟩ := exec_sknp_next h
    exact ⟨k, hk, advance_skip_pc s (by simp)⟩
  | ldVxK x =>
    obtain ⟨hnone, rfl⟩ | ⟨k, hk, rfl⟩ := exec_ldVxK_next h
    · exact ⟨fun ⟨k, hk⟩ => by simp [hnone] at hk, fun _ => rfl⟩
    · exact ⟨fun _ => rfl, fun hnone => by simp [hnone] at hk⟩
  | addI x => obtain ⟨-, rfl⟩ := exec_addI_next h; rfl
  | ldB x => obtain ⟨-, rfl⟩ := exec_ldB_next h; rfl
  | storeRegs x => obtain ⟨-, rfl⟩ := exec_storeRegs_next h; rfl
  | loadRegs x =>
    obtain ⟨-, rfl⟩ := exec_loadRegs_next h
    rw [State.setRegs_eq]
    rfl
  | drw x y n => obtain ⟨b, d, rfl⟩ := exec_drw_next h; rfl
  | _ => cases h; rfl

/-! The bounds of PC and of the pushed PCs (R13, R80) -/

theorem decode0_wellFormed {w : Word} {i : Instr} (h : decode0 w = .instr i) : i.WellFormed := by
  unfold decode0 at h
  split at h <;> cases h <;> rfl

theorem decode8_wellFormed {w : Word} {i : Instr} (h : decode8 w = .instr i) : i.WellFormed := by
  unfold decode8 at h
  split at h <;> cases h <;> rfl

theorem decodeE_wellFormed {w : Word} {i : Instr} (h : decodeE w = .instr i) : i.WellFormed := by
  unfold decodeE at h
  split at h <;> cases h <;> rfl

theorem decodeF_wellFormed {w : Word} {i : Instr} (h : decodeF w = .instr i) : i.WellFormed := by
  unfold decodeF at h
  split at h <;> cases h <;> rfl

/-- Whatever the decoder answers can be encoded: the only bounded operand is NNN, a field of 12 bits (R52). -/
theorem decode_wellFormed {w : Word} {i : Instr} (h : decode w = .instr i) : i.WellFormed := by
  unfold decode at h
  split at h
  -- The cases stand in the order of the families, so `h_1` is family 0 and `h_16` is family F.
  case h_1 => exact decode0_wellFormed h
  case h_9 => exact decode8_wellFormed h
  case h_15 => exact decodeE_wellFormed h
  case h_16 => exact decodeF_wellFormed h
  case h_2 | h_3 | h_11 | h_12 => cases h; exact fits12_fieldNNN w
  case h_17 => cases h
  all_goals cases h; rfl

theorem toNat_add_le (a b : Word) : (a + b).toNat ≤ a.toNat + b.toNat := by
  rw [BitVec.toNat_add]
  exact Nat.mod_le _ _

/-- No handler leaves more than 0x10FE in PC, if its instruction was fetched and every stack entry is one of a fetched
instruction. -/
theorem exec_pc_le {i : Instr} {s t : State} (hwf : i.WellFormed) (hpc : s.pc.toNat ≤ 0xFFE)
    (hstack : ∀ a ∈ s.stack, a.toNat ≤ 0xFFE) (h : exec i s = .next t) : t.pc.toNat ≤ 0x10FE := by
  have hafter := pcAfterTheHandler i s t hwf h
  have hadd : ∀ {a k : Word}, a.toNat ≤ 0xFFE → k.toNat ≤ 4 → (a + k).toNat ≤ 0x10FE :=
    fun ha hk => (toNat_add_le _ _).trans (by omega)
  have h2 : (s.pc + 2).toNat ≤ 0x10FE := hadd hpc (by decide)
  have h4 : (s.pc + 4).toNat ≤ 0x10FE := hadd hpc (by decide)
  have hskip : ∀ {p : Prop} [Decidable p], t.pc = (if p then s.pc + 4 else s.pc + 2) → t.pc.toNat ≤ 0x10FE := by
    intro p _ ht
    rw [ht]
    split
    · exact h4
    · exact h2
  cases i with
  | jp nnn =>
    have hnnn : nnn.toNat < 4096 := fits12_iff.mp hwf
    rw [show t.pc = nnn from hafter]
    omega
  | call nnn =>
    have hnnn : nnn.toNat < 4096 := fits12_iff.mp hwf
    rw [show t.pc = nnn from hafter.1]
    omega
  | jpV0 nnn => exact hafter.2
  | ret =>
    obtain ⟨a, as, hs, rfl⟩ := exec_ret_next h
    exact hadd (hstack a (by simp [hs])) (by decide)
  | seImm x nn | sneImm x nn | seReg x y | sneReg x y => exact hskip hafter
  | skp x | sknp x =>
    obtain ⟨k, -, ht⟩ := hafter
    exact hskip ht
  | ldVxK x =>
    obtain ⟨-, rfl⟩ | ⟨k, -, rfl⟩ := exec_ldVxK_next h
    · omega
    · exact h2
  | _ => rw [show t.pc = s.pc + 2 from hafter]; exact h2

/-- The only address an instruction can put on the stack is its own. -/
theorem exec_mem_stack {i : Instr} {s t : State} (h : exec i s = .next t) {a : Word} (ha : a ∈ t.stack) :
    a = s.pc ∨ a ∈ s.stack := by
  cases i with
  | call nnn =>
    obtain ⟨-, rfl⟩ := exec_call_next h
    exact List.mem_cons.mp ha
  | ret =>
    obtain ⟨b, as, hs, rfl⟩ := exec_ret_next h
    exact .inr (hs ▸ List.mem_cons_of_mem b ha)
  | _ =>
    have hkept : t.stack = s.stack := (exec_frame h).1 .stack (by unfold writtenPieces; simp)
    exact .inr (hkept ▸ ha)

/-- Settles O14: the instruction was fetched, so its own address is at most 0xFFE; that bounds what it pushes and, by the
table of R14, the PC it leaves. -/
theorem stepKeepsPcBounds : Obligations.StepKeepsPcBounds := by
  rintro s t ⟨-, hstack⟩ h
  obtain ⟨i, u, hf, he, rfl⟩ := step_next h
  obtain ⟨hfetched, w, -, hd⟩ := State.fetchDecode_ok hf
  have hpc : s.pc.toNat ≤ 0xFFE := by omega
  refine ⟨exec_pc_le (t := u) (decode_wellFormed hd) hpc hstack he, fun a ha => ?_⟩
  obtain rfl | ha := exec_mem_stack he ha
  · exact hpc
  · exact hstack a ha

/-! The stack's primitive (R18) -/

/-- Settles O26: the list ends, the most recent entry first, are the slots from SP - 1 down. -/
theorem popTakesTheLastSlot : Obligations.PopTakesTheLastSlot := by
  intro s
  cases hs : s.stack with
  | nil => exact ⟨fun _ => State.pop_nil hs, fun n hn => by simp [State.sp, hs] at hn⟩
  | cons a as =>
    refine ⟨fun h0 => by simp [State.sp, hs] at h0, fun n hn => ?_⟩
    obtain rfl : as.length = n := by simpa [State.sp, hs] using hn
    exact ⟨a, { s with stack := as }, State.pop_cons hs, rfl, State.slot_top hs,
      fun k hk => State.slot_below hs hk, rfl, keepsExcept_withStack (by simp) as s.pc⟩

end Sys2Proof.Machine
end

section
/-! PROOFS. The family 20_memory.md: `MemRead` after `MemWrite`, a stored block read and fetched back, and the invariant
of the memory and the stack. -/

namespace Sys2Proof.Machine

/-! `MemRead` and `MemWrite` (R31, R32) -/

section
variable (s : State) {a b : Nat} (v : Byte)

theorem State.writeByte_of_lt (h : a < 4096) : s.writeByte a v = .ok { s with mem := s.mem.set a v } := if_pos h

theorem State.writeByte_of_ge (h : 4096 ≤ a) : s.writeByte a v = .error (.addressRange a) :=
  if_neg (Nat.not_lt.mpr h)

theorem State.readByte_set_same (h : a < 4096) : State.readByte { s with mem := s.mem.set a v } a = .ok v := by
  rw [State.readByte_of_lt _ h, Memory.get_set, if_pos rfl]

theorem State.readByte_set_ne (h : b ≠ a) : State.readByte { s with mem := s.mem.set a v } b = s.readByte b := by
  unfold State.readByte
  rw [Memory.get_set, if_neg h]

end

/-- Settles O25: 4096 parts the faulting accesses from the others, and a write touches the byte it names alone. -/
theorem memReadAndMemWrite : Obligations.MemReadAndMemWrite := by
  refine fun s a v => ⟨fun ha => ?_, fun ha => ?_⟩
  · exact ⟨s.readByte_of_ge ha, s.writeByte_of_ge v ha⟩
  · have hlt : a < 4096 := Nat.lt_succ_of_le ha
    exact ⟨⟨_, s.readByte_of_lt hlt⟩, _, s.writeByte_of_lt v hlt, s.readByte_set_same v hlt,
      fun b hb => s.readByte_set_ne v hb, rfl, keepsExcept_withMem (by simp) _⟩

/-! A stored block as the next fetch sees it (R36, R42) -/

/-- After `LD [I],VX` the byte at I + k is Vk. -/
theorem exec_storeRegs_readByte {x : Reg} {s t : State} (h : exec (.storeRegs x) s = .next t) {k : Nat}
    (hk : k ≤ x.val) : t.readByte (s.iReg.toNat + k) = .ok (s.reg (Fin.ofNat 16 k)) := by
  obtain ⟨hfits, rfl⟩ := exec_storeRegs_next h
  have hin : s.iReg.toNat ≤ s.iReg.toNat + k ∧ s.iReg.toNat + k < s.iReg.toNat + (x.val + 1) ∧
      s.iReg.toNat + k < 4096 := by omega
  rw [State.advance_readByte, State.readByte_setBytes, State.regsUpTo_length, if_pos hin, Nat.add_sub_cancel_left,
    State.regsUpTo_getD s x hk]

/-- Settles O22: the fetch reads two neighbouring bytes of the stored block, the lower address first. -/
theorem storeIsSeenByTheNextFetch : Obligations.StoreIsSeenByTheNextFetch := by
  intro x s t u k h hk hmem hpc
  have hread : ∀ j, j ≤ x.val → u.readByte (s.iReg.toNat + j) = .ok (s.reg (Fin.ofNat 16 j)) :=
    fun j hj => (State.readByte_congr hmem _).trans (exec_storeRegs_readByte h hj)
  rw [bigEndian_eq]
  apply State.fetch_eq_of_bytes
  · rw [hpc, hread k (by omega)]
  · rw [hpc, Nat.add_assoc, hread (k + 1) hk]

/-! The invariant of the memory and the stack (R30, R15, R16) -/

/-- All that a completed handler can do to the memory list: leave it, or write a block that ends within 4096 bytes. -/
theorem exec_mem_cases {i : Instr} {s t : State} (h : exec i s = .next t) :
    t.mem = s.mem ∨ ∃ a vs, a + vs.length ≤ 4096 ∧ t.mem = s.mem.setBytes a vs := by
  cases i with
  | ldB x =>
    obtain ⟨hfits, rfl⟩ := exec_ldB_next h
    exact .inr ⟨_, _, hfits, rfl⟩
  | storeRegs x =>
    obtain ⟨hfits, rfl⟩ := exec_storeRegs_next h
    exact .inr ⟨_, _, (s.regsUpTo_length x).symm ▸ hfits, rfl⟩
  | loadRegs x =>
    obtain ⟨-, rfl⟩ := exec_loadRegs_next h
    rw [State.setRegs_eq]
    exact .inl rfl
  | ret => obtain ⟨a, as, -, rfl⟩ := exec_ret_next h; exact .inl rfl
  | call nnn => obtain ⟨-, rfl⟩ := exec_call_next h; exact .inl rfl
  | addI x => obtain ⟨-, rfl⟩ := exec_addI_next h; exact .inl rfl
  | drw x y n => obtain ⟨b, d, rfl⟩ := exec_drw_next h; exact .inl rfl
  | skp x => obtain ⟨k, -, rfl⟩ := exec_skp_next h; exact .inl rfl
  | sknp x => obtain ⟨k, -, rfl⟩ := exec_sknp_next h; exact .inl rfl
  | ldVxK x => obtain ⟨-, rfl⟩ | ⟨k, -, rfl⟩ := exec_ldVxK_next h <;> exact .inl rfl
  | _ => cases h; exact .inl rfl

theorem exec_keeps_mem_wf {i : Instr} {s t : State} (h : exec i s = .next t) (hwf : s.mem.wf) : t.mem.wf := by
  obtain hm | ⟨a, vs, hfits, hm⟩ := exec_mem_cases h
  · exact hm ▸ hwf
  · exact hm ▸ Memory.wf_setBytes hwf hfits

theorem exec_keeps_stack_le {i : Instr} {s t : State} (h : exec i s = .next t) (hle : s.stack.length ≤ 16) :
    t.stack.length ≤ 16 := by
  cases i with
  | call nnn =>
    obtain ⟨hlt, rfl⟩ := exec_call_next h
    exact hlt
  | ret =>
    obtain ⟨a, as, hs, rfl⟩ := exec_ret_next h
    rw [hs, List.length_cons] at hle
    exact Nat.le_of_succ_le hle
  | _ =>
    have hkept : t.stack = s.stack := (exec_frame h).1 .stack (by unfold writtenPieces; simp)
    exact hkept ▸ hle

/-- Settles O12: the fetch and the tick touch neither piece, a handler's block write ends within the memory, and a
completed `CALL` found room on the stack. -/
theorem stepKeepsStateWf : Obligations.StepKeepsStateWf := by
  rintro s t ⟨hmem, hstack⟩ h
  obtain ⟨i, u, -, he, rfl⟩ := step_next h
  exact ⟨exec_keeps_mem_wf (t := u) he hmem, exec_keeps_stack_le (t := u) he hstack⟩

end Sys2Proof.Machine
end

section
/-! PROOFS. The family 30_encoding.md: the decoder against the encoder in both directions, every row of the opcode
table, and the words without an operation. -/

namespace Sys2Proof

/-! Masking a word in its fields (R57): the bits that a row ignores are one of the four nibbles. -/

theorem wordOfNibbles_and (f a b c f' a' b' c' : BitVec 4) :
    wordOfNibbles f a b c &&& wordOfNibbles f' a' b' c' =
      wordOfNibbles (f &&& f') (a &&& a') (b &&& b') (c &&& c') := by
  unfold wordOfNibbles
  rw [BitVec.and_append, BitVec.and_append, BitVec.and_append]

theorem and_nibbleMask {w : Word} {f c : BitVec 4} (hf : family w = f) (hc : lowNibble w = c) (f' a' b' c' : BitVec 4) :
    w &&& wordOfNibbles f' a' b' c' =
      wordOfNibbles (f &&& f') (nibbleOf (fieldX w) &&& a') (nibbleOf (fieldY w) &&& b') (c &&& c') := by
  rw [← wordOfNibbles_and, wordOfNibbles_fields hf hc]

theorem nibble_and_ones (a : BitVec 4) : a &&& 0xF = a := BitVec.and_allOnes

theorem nibble_and_zero (a : BitVec 4) : a &&& 0 = 0 := BitVec.and_zero

theorem byte_and_ones (b : Byte) : b &&& 0xFF = b := BitVec.and_allOnes

/-- Bits 3:0 masked out, as in 5XY- and 9XY-. -/
theorem wordOfNibbles_ignoringN {w : Word} {f : BitVec 4} (hf : family w = f) :
    wordOfNibbles f (nibbleOf (fieldX w)) (nibbleOf (fieldY w)) 0 = w &&& ~~~0x000F := by
  have h := and_nibbleMask hf rfl 0xF 0xF 0xF 0
  simp only [nibble_and_ones, nibble_and_zero] at h
  exact h.symm

/-- Bits 7:4 masked out, as in the shifts 8X-6 and 8X-E. -/
theorem wordOfNibbles_ignoringY {w : Word} {f c : BitVec 4} (hf : family w = f) (hc : lowNibble w = c) :
    wordOfNibbles f (nibbleOf (fieldX w)) 0 c = w &&& ~~~0x00F0 := by
  have h := and_nibbleMask hf hc 0xF 0xF 0 0xF
  simp only [nibble_and_ones, nibble_and_zero] at h
  exact h.symm

/-- Bits 11:8 masked out, as in 0-E0 and 0-EE. -/
theorem wordXNN_ignoringX {w : Word} {f : BitVec 4} {nn : Byte} (hf : family w = f) (hn : fieldNN w = nn) :
    wordXNN f 0 nn = w &&& ~~~0x0F00 := by
  calc wordXNN f 0 nn
      = wordXNN f (nibbleOf (fieldX w)) nn &&& wordXNN 0xF 0 0xFF := by
        unfold wordXNN
        rw [BitVec.and_append, BitVec.and_append, nibble_and_ones, nibble_and_zero, byte_and_ones]
    _ = w &&& ~~~0x0F00 := by rw [wordXNN_fields hf hn]; rfl

/-- The encoder gives the word back with its ignored bits cleared (R57). -/
def EncodesTo (i : Instr) (w : Word) : Prop := encode i = w &&& ~~~ignoredBits i

theorem EncodesTo.of_eq {i : Instr} {w : Word} (hi : ignoredBits i = 0) (h : encode i = w) : EncodesTo i w := by
  unfold EncodesTo
  rw [hi, h]
  exact BitVec.and_allOnes.symm

section
variable {w : Word} {i : Instr}

theorem encodesTo_of_decode0 (hf : family w = 0x0) (h : decode0 w = .instr i) : EncodesTo i w := by
  unfold decode0 at h
  split at h
  case h_1 hn | h_2 hn => cases h; exact wordXNN_ignoringX hf hn
  case h_3 => cases h

theorem encodesTo_of_decode8 (hf : family w = 0x8) (h : decode8 w = .instr i) : EncodesTo i w := by
  unfold decode8 at h
  split at h
  case h_7 hc | h_9 hc => cases h; exact wordOfNibbles_ignoringY hf hc
  case h_10 => cases h
  all_goals
    rename_i hc
    cases h
    exact .of_eq rfl (wordOfNibbles_fields hf hc)

theorem encodesTo_of_decodeE (hf : family w = 0xE) (h : decodeE w = .instr i) : EncodesTo i w := by
  unfold decodeE at h
  split at h
  case h_1 hn | h_2 hn => cases h; exact .of_eq rfl (wordXNN_fields hf hn)
  case h_3 => cases h

theorem encodesTo_of_decodeF (hf : family w = 0xF) (h : decodeF w = .instr i) : EncodesTo i w := by
  unfold decodeF at h
  split at h
  case h_10 => cases h
  all_goals
    rename_i hn
    cases h
    exact .of_eq rfl (wordXNN_fields hf hn)

theorem encodesTo_of_decode (h : decode w = .instr i) : EncodesTo i w := by
  unfold decode at h
  split at h
  -- The cases stand in the order of the families, so `h_1` is family 0 and `h_16` is family F.
  case h_1 hf => exact encodesTo_of_decode0 hf h
  case h_9 hf => exact encodesTo_of_decode8 hf h
  case h_15 hf => exact encodesTo_of_decodeE hf h
  case h_16 hf => exact encodesTo_of_decodeF hf h
  case h_2 hf | h_3 hf | h_11 hf | h_12 hf => cases h; exact .of_eq rfl (wordNNN_fields hf)
  case h_4 hf | h_5 hf | h_7 hf | h_8 hf | h_13 hf => cases h; exact .of_eq rfl (wordXNN_fields hf rfl)
  case h_6 hf | h_10 hf => cases h; exact wordOfNibbles_ignoringN hf
  case h_14 hf => cases h; exact .of_eq rfl (wordOfNibbles_fields hf rfl)
  case h_17 => cases h

end

end Sys2Proof

namespace Sys2Proof.Machine

/-- Settles O8: each family's row is put together again from its fields, the ignored nibble cleared. -/
theorem encodeOfDecode : Obligations.EncodeOfDecode :=
  fun _ _ h => ⟨decode_wellFormed h, encodesTo_of_decode h⟩

/-- Settles O7: one round-trip lemma per instruction; only the four that carry NNN use well-formedness. -/
theorem decodeOfEncode : Obligations.DecodeOfEncode := by
  intro i
  cases i with
  | cls => exact Laws.RoundTrip.cls
  | ret => exact Laws.RoundTrip.ret
  | jp nnn => exact Laws.RoundTrip.jp nnn
  | call nnn => exact Laws.RoundTrip.call nnn
  | seImm x nn => exact Laws.RoundTrip.seImm x nn
  | sneImm x nn => exact Laws.RoundTrip.sneImm x nn
  | seReg x y => exact Laws.RoundTrip.seReg x y
  | ldImm x nn => exact Laws.RoundTrip.ldImm x nn
  | addImm x nn => exact Laws.RoundTrip.addImm x nn
  | ldReg x y => exact Laws.RoundTrip.ldReg x y
  | orReg x y => exact Laws.RoundTrip.orReg x y
  | andReg x y => exact Laws.RoundTrip.andReg x y
  | xorReg x y => exact Laws.RoundTrip.xorReg x y
  | addReg x y => exact Laws.RoundTrip.addReg x y
  | sub x y => exact Laws.RoundTrip.sub x y
  | shr x => exact Laws.RoundTrip.shr x
  | subn x y => exact Laws.RoundTrip.subn x y
  | shl x => exact Laws.RoundTrip.shl x
  | sneReg x y => exact Laws.RoundTrip.sneReg x y
  | ldI nnn => exact Laws.RoundTrip.ldI nnn
  | jpV0 nnn => exact Laws.RoundTrip.jpV0 nnn
  | rnd x nn => exact Laws.RoundTrip.rnd x nn
  | drw x y n => exact Laws.RoundTrip.drw x y n
  | skp x => exact Laws.RoundTrip.skp x
  | sknp x => exact Laws.RoundTrip.sknp x
  | ldVxDt x => exact Laws.RoundTrip.ldVxDt x
  | ldVxK x => exact Laws.RoundTrip.ldVxK x
  | ldDtVx x => exact Laws.RoundTrip.ldDtVx x
  | ldStVx x => exact Laws.RoundTrip.ldStVx x
  | addI x => exact Laws.RoundTrip.addI x
  | ldF x => exact Laws.RoundTrip.ldF x
  | ldB x => exact Laws.RoundTrip.ldB x
  | storeRegs x => exact Laws.RoundTrip.storeRegs x
  | loadRegs x => exact Laws.RoundTrip.loadRegs x

/-! The rows of the opcode table (R54 to R56) -/

/-- Settles O3: the mask leaves the family, and the decoder looks at no more. -/
theorem oneLevelFamiliesDecode : Obligations.OneLevelFamiliesDecode := by
  unfold Obligations.OneLevelFamiliesDecode
  and_intros
  all_goals
    intro w h
    have hf := family_of_mask h
    simp [decode, hf, numX_eq, numY_eq, numN_eq, numNN_eq, numNNN_eq]

/-- Settles O4: the mask leaves the family and its selector. -/
theorem familiesZeroAndEightDecode : Obligations.FamiliesZeroAndEightDecode := by
  refine ⟨?cls, ?ret, ?_⟩
  case cls | ret =>
    intro w h
    obtain ⟨hf, hn⟩ := fields_of_mask_F0FF h
    simp [decode_family0 hf, decode0, hn]
  and_intros
  all_goals
    intro w h
    obtain ⟨hf, hc⟩ := fields_of_mask_F00F h
    simp [decode_family8 hf, decode8, hc, numX_eq, numY_eq]

/-- Settles O5: the mask leaves the family and the low byte, its selector. -/
theorem familiesEAndFDecode : Obligations.FamiliesEAndFDecode := by
  refine ⟨?skp, ?sknp, ?_⟩
  case skp | sknp =>
    intro w h
    obtain ⟨hf, hn⟩ := fields_of_mask_F0FF h
    simp [decode_familyE hf, decodeE, hn, numX_eq]
  and_intros
  all_goals
    intro w h
    obtain ⟨hf, hn⟩ := fields_of_mask_F0FF h
    simp [decode_familyF hf, decodeF, hn, numX_eq]

/-! The words without an operation (R58) -/

section
variable (w : Word)

theorem decode0_illegal_iff : (∃ why, decode0 w = .illegal why) ↔ w.toNat % 256 ∉ [0xE0, 0xEE] := by
  rw [← fieldNN_toNat]
  unfold decode0
  split
  case h_1 hn | h_2 hn => simp [hn]
  case h_3 h1 h2 => simpa [BitVec.toNat_eq] using And.intro h1 h2

theorem decode8_illegal_iff : (∃ why, decode8 w = .illegal why) ↔
    w.toNat % 16 ∈ [0x8, 0x9, 0xA, 0xB, 0xC, 0xD, 0xF] := by
  rw [← lowNibble_toNat]
  unfold decode8
  obtain h | h | h | h | h | h | h | h | h | h | h | h | h | h | h | h := nibble_cases (lowNibble w)
  all_goals simp [h]

theorem decodeE_illegal_iff : (∃ why, decodeE w = .illegal why) ↔ w.toNat % 256 ∉ [0x9E, 0xA1] := by
  rw [← fieldNN_toNat]
  unfold decodeE
  split
  case h_1 hn | h_2 hn => simp [hn]
  case h_3 h1 h2 => simpa [BitVec.toNat_eq] using And.intro h1 h2

theorem decodeF_illegal_iff : (∃ why, decodeF w = .illegal why) ↔
    w.toNat % 256 ∉ [0x07, 0x0A, 0x15, 0x18, 0x1E, 0x29, 0x33, 0x55, 0x65] := by
  rw [← fieldNN_toNat]
  unfold decodeF
  split
  case h_10 => simp_all [BitVec.toNat_eq]
  all_goals
    rename_i hn
    simp [hn]

end

/-- Settles O6: family by family; the one-level families have no illegal word. -/
theorem illegalWordsAreTheListed : Obligations.IllegalWordsAreTheListed := by
  intro w
  rw [← family_toNat]
  unfold decode
  split
  -- The cases stand in the order of the families, so `h_1` is family 0 and `h_16` is family F.
  case h_1 hf => simp [hf, decode0_illegal_iff]
  case h_9 hf => simp [hf, decode8_illegal_iff]
  case h_15 hf => simp [hf, decodeE_illegal_iff]
  case h_16 hf => simp [hf, decodeF_illegal_iff]
  case h_17 =>
    have hcases := nibble_cases (family w)
    simp_all
  all_goals
    rename_i hf
    simp [hf]

/-- Settles O9: the decoder evaluated at ten words. -/
theorem specWordsDecode : Obligations.SpecWordsDecode := by
  unfold Obligations.SpecWordsDecode
  decide

end Sys2Proof.Machine
end

section
/-! PROOFS. The family 40_step_cycle.md: the phases of a step one by one, the timers after it, a loaded program's first
fetch, and what the byte drawn can change. -/

namespace Sys2Proof.Machine

/-! The phases of a step (R70, R71) -/

section
variable {s : State} {f : Fault}

/-- A fault of `MemRead(pc, 1)` ends the step. -/
theorem step_of_first_read_fault (h : s.readByte s.pc.toNat = .error f) : step s = .fault f := by
  have hf : s.fetch = .error f := by unfold State.fetch; rw [h]
  exact step_of_fault (State.fetchDecode_of_fault hf)

/-- So does one of `MemRead(pc + 1, 1)`. -/
theorem step_of_second_read_fault {hi : Byte} (h : s.readByte s.pc.toNat = .ok hi)
    (h' : s.readByte (s.pc.toNat + 1) = .error f) : step s = .fault f := by
  have hf : s.fetch = .error f := by unfold State.fetch; rw [h, h']
  exact step_of_fault (State.fetchDecode_of_fault hf)

/-- Two bytes read are the fetched word, the first of them its high byte. -/
theorem State.fetch_eq_bigEndian {hi lo : Byte} (h : s.readByte s.pc.toNat = .ok hi)
    (h' : s.readByte (s.pc.toNat + 1) = .ok lo) : s.fetch = .ok (bigEndian hi lo) := by
  rw [bigEndian_eq, State.fetch_eq_of_bytes h h']

end

/-- Settles O1: the two reads make the fetch, the decoder answers for its word, and `retire` is the tick. -/
theorem stepFetchesDecodesExecutesTicks : Obligations.StepFetchesDecodesExecutesTicks := by
  refine fun s => ⟨fun f h => step_of_first_read_fault h, fun hi f h h' => step_of_second_read_fault h h',
    fun hi lo h h' => ?_⟩
  have hfetch := State.fetch_eq_bigEndian h h'
  refine ⟨fun why hd => step_of_fault (State.fetchDecode_of_illegal hfetch hd), fun i hd => ?_⟩
  have hstep := step_of_instr (State.fetchDecode_of_instr hfetch hd)
  exact ⟨fun t he => by rw [hstep, he]; rfl, fun f he => by rw [hstep, he]; rfl⟩

/-! The first fetch after a load (R172) -/

/-- All that a successful load can be: the reset state with the ROM's bytes at 0x200. -/
theorem State.loadROM_ok {s t : State} {rom : List Byte} (h : s.loadROM rom = .ok t) :
    rom.length ≤ 3584 ∧
      t = { s.resetKeepingDraws with mem := s.resetKeepingDraws.mem.setBytes Config.romBase rom } := by
  unfold State.loadROM at h
  split at h <;> cases h
  exact ⟨‹_›, rfl⟩

/-- After a load the memory from 0x200 on holds the ROM, and zeros after its end. -/
theorem State.loadROM_readByte {s t : State} {rom : List Byte} (h : s.loadROM rom = .ok t) {k : Nat} (hk : k < 3584) :
    t.readByte (0x200 + k) = .ok (rom.getD k 0) := by
  obtain ⟨-, rfl⟩ := State.loadROM_ok h
  rw [State.readByte_setBytes, Config.romBase]
  by_cases hin : k < rom.length
  · rw [if_pos (by omega), Nat.add_sub_cancel_left]
  · have hreset : s.resetKeepingDraws.readByte (0x200 + k) = .ok (initialByte (0x200 + k)) :=
      State.readByte_of_lt _ (by omega)
    rw [if_neg (by omega), hreset, initialByte_of_ge (by omega), List.getD_eq_default _ _ (Nat.not_lt.mp hin)]

theorem State.loadROM_pc {s t : State} {rom : List Byte} (h : s.loadROM rom = .ok t) : t.pc = 0x200 := by
  obtain ⟨-, rfl⟩ := State.loadROM_ok h
  rfl

/-- Settles O2: both addresses of a fetch are below 4096 exactly up to PC = 4094, and a load leaves the ROM's first two
bytes at PC. -/
theorem fetchIsBigEndianAtPc : Obligations.FetchIsBigEndianAtPc := by
  refine ⟨fun s hpc => ?_, fun s hpc => ?_, fun s hpc => ?_, fun s t rom _ h => ?_⟩
  · have hhi := s.readByte_of_lt (a := s.pc.toNat) (by omega)
    have hlo := s.readByte_of_lt (a := s.pc.toNat + 1) (by omega)
    exact ⟨_, _, hhi, hlo, State.fetch_eq_bigEndian hhi hlo⟩
  · exact step_of_first_read_fault (s.readByte_of_ge hpc)
  · have hhi := s.readByte_of_lt (a := s.pc.toNat) (by omega)
    have hlo := s.readByte_of_ge (a := s.pc.toNat + 1) (by omega)
    rw [step_of_second_read_fault hhi hlo, hpc]
  · have hpc := State.loadROM_pc h
    have hfetch : t.fetch = .ok (bigEndian (rom.getD 0 0) (rom.getD 1 0)) := by
      apply State.fetch_eq_bigEndian <;> rw [hpc]
      · exact State.loadROM_readByte (k := 0) h (by omega)
      · exact State.loadROM_readByte (k := 1) h (by omega)
    exact ⟨hpc, hfetch, fun i hd => step_of_instr (State.fetchDecode_of_instr hfetch hd)⟩

/-! The timers after a step (R74) -/

section
variable {i : Instr} {s u : State}

/-- Every handler but that of `LD DT,VX` leaves DT. -/
theorem exec_keeps_dt (h : exec i s = .next u) (hi : ∀ x, i ≠ .ldDtVx x) : u.dt = s.dt := by
  cases i with
  | ldDtVx x => exact absurd rfl (hi x)
  | _ => exact (exec_frame h).1 .delay (by unfold writtenPieces; simp)

/-- Every handler but that of `LD ST,VX` leaves ST. -/
theorem exec_keeps_st (h : exec i s = .next u) (hi : ∀ x, i ≠ .ldStVx x) : u.st = s.st := by
  cases i with
  | ldStVx x => exact absurd rfl (hi x)
  | _ => exact (exec_frame h).1 .sound (by unfold writtenPieces; simp)

end

/-- Settles O10: the tick takes one from what the handler left, and the frame says what that is; the tick touches
neither the registers nor PC. -/
theorem timersTickAfterTheHandler : Obligations.TimersTickAfterTheHandler := by
  intro s t h
  obtain ⟨i, u, hf, he, rfl⟩ := step_next h
  rw [State.tick_dt, State.tick_st, tickTimer_toNat, tickTimer_toNat]
  refine ⟨i, hf, ?dtWritten, fun hi => ?dtKept, ?stWritten, fun hi => ?stKept, ?dtRead, ?wait⟩
  case dtKept => rw [exec_keeps_dt he hi]
  case stKept => rw [exec_keeps_st he hi]
  case dtWritten | stWritten =>
    rintro x rfl
    cases he
    rfl
  case dtRead =>
    rintro x rfl
    cases he
    exact State.setReg_reg_same s x s.dt
  case wait =>
    rintro x rfl hnone
    rw [execLdVxK_none hnone] at he
    cases he
    rfl

/-! A step with another byte drawn (R78) -/

/-- The same machine state with the counter that stands for the free input at `d` (log 1). -/
def State.withDraws (s : State) (d : Nat) : State := { s with draws := d }

/-- The same outcome, with that counter at `d` in the state it leaves, if any. -/
def resultWithDraws (d : Nat) : Result → Result
  | .next t => .next (t.withDraws d)
  | .fault f => .fault f
  | .refused r => .refused r

section
variable (s : State) (d : Nat)

@[simp] theorem State.withDraws_reg (r : Reg) : (s.withDraws d).reg r = s.reg r := rfl

/-- Neither the fetch nor the decoder reads the counter. -/
theorem State.withDraws_fetchDecode : (s.withDraws d).fetchDecode = s.fetchDecode := rfl

theorem State.withDraws_setRegs (k : Nat) (vs : List Byte) :
    (s.withDraws d).setRegs k vs = (s.setRegs k vs).withDraws d := by
  induction vs generalizing s k with
  | nil => rfl
  | cons v vs ih => exact ih (s.setReg (Fin.ofNat 16 k) v) (k + 1)

theorem retire_resultWithDraws (r : Result) : retire (resultWithDraws d r) = resultWithDraws d (retire r) := by
  cases r <;> rfl

theorem attempt_resultWithDraws {α : Type} (e : Except Fault α) (k : α → Result) :
    attempt e (fun a => resultWithDraws d (k a)) = resultWithDraws d (attempt e k) := by
  cases e <;> rfl

/-- Every handler but that of `RND` neither reads nor writes the counter. -/
theorem exec_withDraws {i : Instr} (hi : ∀ x nn, i ≠ .rnd x nn) :
    exec i (s.withDraws d) = resultWithDraws d (exec i s) := by
  cases i with
  | rnd x nn => exact absurd rfl (hi x nn)
  | ret =>
    cases hs : s.stack with
    | nil => rw [execRet_nil hs]; exact execRet_nil (s := s.withDraws d) hs
    | cons a as => rw [execRet_cons hs]; exact execRet_cons (s := s.withDraws d) hs
  | call nnn =>
    by_cases hs : s.stack.length < 16
    · rw [execCall_of_lt nnn hs]; exact execCall_of_lt nnn (s := s.withDraws d) hs
    · have hs := Nat.not_lt.mp hs
      rw [execCall_of_ge nnn hs]; exact execCall_of_ge nnn (s := s.withDraws d) hs
  | ldVxK x =>
    by_cases hk : ∀ k, s.key k = false
    · rw [execLdVxK_none hk]; exact execLdVxK_none (s := s.withDraws d) hk
    · obtain ⟨k, hk, hmax⟩ := exists_highest_key hk
      rw [execLdVxK_some hk hmax]; exact execLdVxK_some (s := s.withDraws d) hk hmax
  | addI x => exact attempt_resultWithDraws d (indexSum s.iReg (s.reg x)) fun v => (s.setI v).done
  | skp x => exact attempt_resultWithDraws d (s.keyNumbered (s.reg x)) fun b => s.skipIf b
  | sknp x => exact attempt_resultWithDraws d (s.keyNumbered (s.reg x)) fun b => s.skipIf (!b)
  | ldB x => rw [execLdB_eq, execLdB_eq, apply_ite (resultWithDraws d)]; rfl
  | storeRegs x => rw [execStoreRegs_eq, execStoreRegs_eq, apply_ite (resultWithDraws d)]; rfl
  | drw x y n => rw [execDrw_eq, execDrw_eq, apply_ite (resultWithDraws d)]; rfl
  | loadRegs x =>
    rw [execLoadRegs_eq, execLoadRegs_eq, apply_ite (resultWithDraws d), State.withDraws_setRegs]
    rfl
  | _ => rfl

/-- A step that is no `RND` neither reads nor writes the counter. -/
theorem step_withDraws {i : Instr} (hf : s.fetchDecode = .ok i) (hi : ∀ x nn, i ≠ .rnd x nn) :
    step (s.withDraws d) = resultWithDraws d (step s) := by
  rw [step_of_instr (State.withDraws_fetchDecode s d ▸ hf), step_of_instr hf, exec_withDraws s d hi,
    retire_resultWithDraws]

/-- `RND` completes, and the byte it draws reaches VX alone. -/
theorem step_rnd {x : Reg} {nn : Byte} (hf : s.fetchDecode = .ok (.rnd x nn)) :
    step s = .next (rndWith s.drawByte x nn s).countDraw.tick := by
  rw [step_of_instr hf]; rfl

/-- Two completed `RND`s that began alike but for the byte drawn differ in VX and the counter alone. -/
theorem keepsExcept_rndWith (x : Reg) (nn b c : Byte) :
    KeepsExcept [.draws] [x] (rndWith b x nn s).countDraw.tick (rndWith c x nn (s.withDraws d)).countDraw.tick := by
  unfold rndWith
  have hregs : ∀ r, r ∉ [x] → ((s.withDraws d).setReg x (c &&& nn)).reg r = (s.setReg x (b &&& nn)).reg r :=
    fun r hr => by simp [List.ne_of_not_mem_cons hr]
  exact .of_fields (fun _ => rfl) (fun _ => rfl) (fun _ => rfl) (fun _ => rfl) (fun _ => rfl) (fun _ => rfl)
    (fun _ => rfl) (fun h => absurd (List.mem_singleton.mpr rfl) h) hregs

end

/-- Settles O21: no phase but the handler of `RND` uses the counter, and that handler only for the byte it writes to
VX. -/
theorem onlyRndDependsOnTheDraw : Obligations.OnlyRndDependsOnTheDraw := by
  intro s d i hf
  refine ⟨fun hi => ?_, ?_⟩
  · have hstep := step_withDraws s d hf hi
    exact ⟨fun t h => by rw [h] at hstep; exact hstep, fun f h => by rw [h] at hstep; exact hstep⟩
  · rintro x nn rfl
    exact ⟨_, _, step_rnd s hf, step_rnd (s.withDraws d) hf, rfl, keepsExcept_rndWith s d x nn _ _⟩

end Sys2Proof.Machine
end

section
/-! PROOFS. The family 41_control_transfer.md: the jumps, the call and its return, and the skips. -/

namespace Sys2Proof.Machine

/-! Jumps (R81, R87) -/

/-- Settles O35: either handler is one write to PC, and the sum of `JP V0,NNN` does not wrap. -/
theorem jumpsSetPc : Obligations.JumpsSetPc := by
  refine fun nnn s => ⟨⟨s.jump nnn, rfl, rfl, ?_⟩, s.jump (s.offsetTarget nnn), rfl, ?_, fun hnnn => ?_⟩
  · rw [keepsExcept_jump]
    exact .refl _ _ s
  · rw [keepsExcept_jump]
    exact .refl _ _ s
  · exact offsetTarget_toNat (Nat.lt_succ_of_le hnnn) s

/-! `CALL` and `RET` (R80, R82) -/

/-- Settles O36: the call's own address becomes the head of the list, so it is slot SP and the older slots stay below
it. -/
theorem callPushesItsOwnAddress : Obligations.CallPushesItsOwnAddress := by
  refine fun nnn s => ⟨fun hroom => ?_, fun hfull => execCall_of_ge nnn hfull⟩
  exact ⟨_, execCall_of_lt nnn hroom, rfl, rfl, State.slot_top rfl, fun k hk => (State.slot_below rfl hk).symm,
    keepsExcept_withStack (by simp) _ _⟩

/-- Settles O34: the popped value is the head of the list, which is slot SP - 1. -/
theorem retPopsAndAddsTwo : Obligations.RetPopsAndAddsTwo := by
  intro s
  cases hs : s.stack with
  | nil => exact ⟨fun _ => execRet_nil hs, fun n a hn => by simp [State.sp, hs] at hn⟩
  | cons b bs =>
    refine ⟨fun h0 => by simp [State.sp, hs] at h0, fun n a hn ha => ?_⟩
    obtain rfl : bs.length = n := by simpa [State.sp, hs] using hn
    obtain rfl : b = a := Option.some.inj ((State.slot_top hs).symm.trans ha)
    exact ⟨_, execRet_cons hs, rfl, rfl, fun k hk => State.slot_below hs hk, keepsExcept_withStack (by simp) _ _⟩

/-- Settles O23: the entry that `RET` pops is the one `CALL` pushed, whatever PC is in between. -/
theorem returnResumesAfterTheCall : Obligations.ReturnResumesAfterTheCall :=
  fun nnn _ _ hroom => ⟨_, execCall_of_lt nnn hroom, rfl, execRet_cons rfl⟩

/-! Skips (R83 to R86, R88) -/

/-- An instruction that ends in a skip completes, goes on by the skip's condition and changes nothing but PC. -/
theorem exec_of_skipIf {i : Instr} {s : State} {c : Bool} {p q : Prop} (h : exec i s = s.skipIf c)
    (hskip : c = true ↔ p) (hnext : c = false ↔ q) :
    ∃ t, exec i s = .next t ∧ KeepsExcept [] [] s t ∧ (p → t.pc = s.pc + 4) ∧ (q → t.pc = s.pc + 2) := by
  refine ⟨s.advance (if c then 4 else 2), h, ?_, fun hp => ?_, fun hq => ?_⟩
  · rw [keepsExcept_advance]
    exact .refl _ _ s
  · rw [State.advance_pc, if_pos (hskip.mpr hp)]
  · rw [State.advance_pc, if_neg (ne_true_of_eq_false (hnext.mpr hq))]

/-- Settles O37: both instructions end in a skip, on the equality and on the inequality. -/
theorem skipsOnImmediate : Obligations.SkipsOnImmediate :=
  fun _ _ _ => ⟨exec_of_skipIf rfl beq_iff_eq beq_eq_false_iff_ne, exec_of_skipIf rfl bne_iff_ne bne_eq_false_iff_eq⟩

/-- Settles O38: the same skips, with a register in the place of the immediate. -/
theorem skipsOnRegisters : Obligations.SkipsOnRegisters :=
  fun _ _ _ => ⟨exec_of_skipIf rfl beq_iff_eq beq_eq_false_iff_ne, exec_of_skipIf rfl bne_iff_ne bne_eq_false_iff_eq⟩

end Sys2Proof.Machine
end

section
/-! PROOFS. The family 42_load_alu_random.md: what one register write and what the two register writes of a flag writer
leave, and from these the loads, the ALU operations and RND. -/

namespace Sys2Proof.Machine

/-! Flags and differences as numbers -/

theorem flagByte_toNat (p : Prop) [Decidable p] : (flagByte (decide p)).toNat = if p then 1 else 0 := by
  by_cases hp : p
  · rw [decide_eq_true hp, if_pos hp]; rfl
  · rw [decide_eq_false hp, if_neg hp]; rfl

theorem carry_toNat (a b : Byte) : (carry a b).toNat = if 255 < a.toNat + b.toNat then 1 else 0 := flagByte_toNat _

theorem noBorrow_toNat (a b : Byte) : (noBorrow a b).toNat = if b.toNat ≤ a.toNat then 1 else 0 := flagByte_toNat _

theorem lowBit_toNat (a : Byte) : (lowBit a).toNat = a.toNat % 2 := by
  simp [lowBit]

/-- Bit 7 is all that is left of a byte shifted right by seven, so the mask of `highBit` takes nothing away. -/
theorem highBit_toNat (a : Byte) : (highBit a).toNat = a.toNat / 128 := by
  have ha := a.isLt
  have hmask : (highBit a).toNat = a.toNat / 128 % 2 := by simp [highBit, Nat.shiftRight_eq_div_pow]
  omega

theorem byte_sub_toNat (a b : Byte) : (a - b).toNat = (a.toNat + 256 - b.toNat) % 256 := by
  have hb := b.isLt
  rw [BitVec.toNat_sub]
  omega

theorem byte_shiftRight_one_toNat (a : Byte) : (a >>> 1).toNat = a.toNat / 2 := by
  rw [BitVec.toNat_ushiftRight, Nat.shiftRight_eq_div_pow, pow_one]

theorem byte_shiftLeft_one_toNat (a : Byte) : (a <<< 1).toNat = a.toNat * 2 % 256 := by
  rw [BitVec.toNat_shiftLeft, Nat.shiftLeft_eq, pow_one]

/-! One register written, no flag (R90 to R95) -/

/-- An instruction whose handler writes one register completes, and changes nothing but that register and PC. -/
theorem exec_of_setReg {i : Instr} {s : State} {x : Reg} {v : Byte} (h : exec i s = (s.setReg x v).done) :
    ∃ t, exec i s = .next t ∧ t.reg x = v ∧ t.pc = s.pc + 2 ∧ KeepsExcept [] [x] s t :=
  ⟨(s.setReg x v).advance 2, h, s.setReg_reg_same x v, rfl, by simp [KeepsExcept.refl]⟩

/-- Settles O39: each handler writes one register; the immediate add is the sum of bytes, which wraps. -/
theorem loadsAndAddImmediate : Obligations.LoadsAndAddImmediate := by
  refine fun x y nn s => ⟨exec_of_setReg rfl, ?_, exec_of_setReg rfl⟩
  obtain ⟨t, ht, hreg, hpc, hframe⟩ := exec_of_setReg (i := .addImm x nn) (s := s) rfl
  exact ⟨t, ht, by rw [hreg, BitVec.toNat_add], hpc, hframe⟩

/-- A register write whose value is given bit by bit leaves these bits. -/
theorem exec_of_setReg_bits {i : Instr} {s : State} {x : Reg} {v : Byte} {bit : Nat → Bool}
    (h : exec i s = (s.setReg x v).done) (hv : ∀ b, v.getLsbD b = bit b) :
    ∃ t, exec i s = .next t ∧ t.pc = s.pc + 2 ∧ KeepsExcept [] [x] s t ∧ ∀ b, (t.reg x).getLsbD b = bit b := by
  obtain ⟨t, ht, rfl, hpc, hframe⟩ := exec_of_setReg h
  exact ⟨t, ht, hpc, hframe, hv⟩

/-- Settles O40: each handler writes the one register, and the operations on bytes are bitwise. -/
theorem bitwiseOperations : Obligations.BitwiseOperations :=
  fun _ _ _ => ⟨exec_of_setReg_bits rfl fun _ => BitVec.getLsbD_or, exec_of_setReg_bits rfl fun _ => BitVec.getLsbD_and,
    exec_of_setReg_bits rfl fun _ => BitVec.getLsbD_xor⟩

/-! The sum first, then the flag (R97) -/

section
variable {s t : State} {x y : Reg}

theorem exec_addReg_next (h : exec (.addReg x y) s = .next t) :
    (x ≠ vf → t.reg x = s.reg x + s.reg y) ∧ t.reg vf = carry (s.reg x) (s.reg y) ∧
      t.pc = s.pc + 2 ∧ KeepsExcept [] [x, vf] s t := by
  cases h
  refine ⟨fun hx => ?_, State.setFlag_reg_vf _ _, rfl, by simp [KeepsExcept.refl]⟩
  rw [State.advance_reg, State.setFlag_reg, if_neg hx, State.setReg_reg_same]

/-! The flag first, then a result of the registers as they then stand (R96) -/

theorem flagThen_next {flag : Byte} {result : State → Byte} (h : s.flagThen flag x result = .next t) :
    (x ≠ vf → t.reg vf = flag) ∧ t.reg x = result (s.setFlag flag) ∧ t.pc = s.pc + 2 ∧ KeepsExcept [] [x, vf] s t := by
  cases h
  refine ⟨fun hx => ?_, State.setReg_reg_same _ _ _, rfl, by simp [KeepsExcept.refl]⟩
  rw [State.advance_reg, State.setReg_reg_ne _ _ _ _ hx.symm, State.setFlag_reg_vf]

theorem exec_sub_next (h : exec (.sub x y) s = .next t) :
    (x ≠ vf → t.reg vf = noBorrow (s.reg x) (s.reg y)) ∧
      t.reg x = (if x = vf then noBorrow (s.reg x) (s.reg y) else s.reg x) -
        (if y = vf then noBorrow (s.reg x) (s.reg y) else s.reg y) ∧
      t.pc = s.pc + 2 ∧ KeepsExcept [] [x, vf] s t := by
  rw [← State.setFlag_reg, ← State.setFlag_reg]
  exact flagThen_next (show execSub x y s = _ from h)

theorem exec_subn_next (h : exec (.subn x y) s = .next t) :
    (x ≠ vf → t.reg vf = noBorrow (s.reg y) (s.reg x)) ∧
      t.reg x = (if y = vf then noBorrow (s.reg y) (s.reg x) else s.reg y) -
        (if x = vf then noBorrow (s.reg y) (s.reg x) else s.reg x) ∧
      t.pc = s.pc + 2 ∧ KeepsExcept [] [x, vf] s t := by
  rw [← State.setFlag_reg, ← State.setFlag_reg]
  exact flagThen_next (show execSubn x y s = _ from h)

theorem exec_shr_next (h : exec (.shr x) s = .next t) :
    (x ≠ vf → t.reg vf = lowBit (s.reg x)) ∧ t.reg x = (if x = vf then lowBit (s.reg x) else s.reg x) >>> 1 ∧
      t.pc = s.pc + 2 ∧ KeepsExcept [] [x, vf] s t := by
  rw [← State.setFlag_reg]
  exact flagThen_next (show execShr x s = _ from h)

theorem exec_shl_next (h : exec (.shl x) s = .next t) :
    (x ≠ vf → t.reg vf = highBit (s.reg x)) ∧ t.reg x = (if x = vf then highBit (s.reg x) else s.reg x) <<< 1 ∧
      t.pc = s.pc + 2 ∧ KeepsExcept [] [x, vf] s t := by
  rw [← State.setFlag_reg]
  exact flagThen_next (show execShl x s = _ from h)

end

/-- Settles O41: the carry is written last, so only the sum needs a destination other than VF. -/
theorem addRegistersWithCarry : Obligations.AddRegistersWithCarry := by
  intro x y s
  obtain ⟨hsum, hcarry, hpc, hframe⟩ := exec_addReg_next (x := x) (y := y) (s := s) rfl
  exact ⟨_, rfl, fun hx => by rw [hsum hx, BitVec.toNat_add], by rw [hcarry, carry_toNat], hpc, hframe⟩

/-- Settles O42: the flag `f` is the not-borrow, and an operand that is VF is read after it was written. -/
theorem subtractionsWithBorrow : Obligations.SubtractionsWithBorrow :=
  fun x y s => ⟨⟨_, noBorrow (s.reg x) (s.reg y), rfl, noBorrow_toNat _ _, exec_sub_next rfl⟩,
    _, noBorrow (s.reg y) (s.reg x), rfl, noBorrow_toNat _ _, exec_subn_next rfl⟩

/-- Settles O43: for X = F the shifted operand is the flag, a single bit, which a shift to the right drops and a shift to
the left doubles. -/
theorem shiftsByOne : Obligations.ShiftsByOne := by
  intro x s
  constructor
  · obtain ⟨hvf, hx, hpc, hframe⟩ := exec_shr_next (x := x) (s := s) rfl
    refine ⟨_, rfl, fun hne => ⟨?_, ?_⟩, ?_, hpc, hframe⟩
    · rw [hvf hne, lowBit_toNat]
    · rw [hx, if_neg hne, byte_shiftRight_one_toNat]
    · rintro rfl
      have hzero : (lowBit (s.reg vf) >>> 1).toNat = 0 := by
        rw [byte_shiftRight_one_toNat, lowBit_toNat]
        omega
      rw [hx, if_pos rfl]
      exact BitVec.eq_of_toNat_eq hzero
  · obtain ⟨hvf, hx, hpc, hframe⟩ := exec_shl_next (x := x) (s := s) rfl
    refine ⟨_, rfl, fun hne => ⟨?_, ?_⟩, ?_, hpc, hframe⟩
    · rw [hvf hne, highBit_toNat]
    · rw [hx, if_neg hne, byte_shiftLeft_one_toNat]
    · rintro rfl
      rw [hx, if_pos rfl, byte_shiftLeft_one_toNat, highBit_toNat]
      have := (s.reg vf).isLt
      omega

/-- Settles O44: the three rows of the table of R96, each with VF as the first operand, the second, and both. -/
theorem vfAsAnOperand : Obligations.VfAsAnOperand := by
  intro r s hr
  refine ⟨fun t h => ?addFr, fun t h => ?addRf, fun t h => ?addFf, fun t h => ?subFr, fun t h => ?subRf,
    fun t h => ?subFf, fun t h => ?subnFr, fun t h => ?subnRf, fun t h => ?subnFf⟩
  case addFr | addFf =>
    obtain ⟨-, hcarry, -, -⟩ := exec_addReg_next h
    rw [hcarry, carry_toNat]
  case addRf =>
    obtain ⟨hsum, hcarry, -, -⟩ := exec_addReg_next h
    exact ⟨by rw [hsum hr, BitVec.toNat_add], by rw [hcarry, carry_toNat]⟩
  case subFr =>
    obtain ⟨-, hdiff, -, -⟩ := exec_sub_next h
    rw [hdiff, if_pos rfl, if_neg hr, byte_sub_toNat, noBorrow_toNat]
  case subRf =>
    obtain ⟨hflag, hdiff, -, -⟩ := exec_sub_next h
    rw [hdiff, hflag hr, if_neg hr, if_pos rfl]
    exact ⟨noBorrow_toNat _ _, byte_sub_toNat _ _⟩
  case subFf =>
    obtain ⟨-, hdiff, -, -⟩ := exec_sub_next h
    exact hdiff.trans (BitVec.sub_self _)
  case subnFr =>
    obtain ⟨-, hdiff, -, -⟩ := exec_subn_next h
    rw [hdiff, if_neg hr, if_pos rfl, byte_sub_toNat, noBorrow_toNat]
  case subnRf =>
    obtain ⟨hflag, hdiff, -, -⟩ := exec_subn_next h
    rw [hdiff, hflag hr, if_pos rfl, if_neg hr]
    exact ⟨noBorrow_toNat _ _, byte_sub_toNat _ _⟩
  case subnFf =>
    obtain ⟨-, hdiff, -, -⟩ := exec_subn_next h
    exact hdiff.trans (BitVec.sub_self _)

/-! `RND` (R106) -/

theorem byte_and_and_not (a m : Byte) : a &&& m &&& ~~~m = 0 := by
  rw [BitVec.and_assoc, BitVec.and_not_self]
  exact BitVec.and_zero

/-- Settles O45: the handler writes the masked draw to VX and counts it. -/
theorem rndMasksTheDraw : Obligations.RndMasksTheDraw := by
  intro x nn s
  have hreg : (rndWith s.drawByte x nn s).countDraw.reg x = s.drawByte &&& nn := s.setReg_reg_same x _
  refine ⟨_, rfl, hreg, ?_, rfl, rfl, ?_⟩
  · rw [hreg, byte_and_and_not]
  · simp [rndWith, KeepsExcept.refl]

end Sys2Proof.Machine
end

section
/-! PROOFS. The family 43_index_memory.md: the writes of I, and what a handler that stores or loads a block leaves. -/

namespace Sys2Proof.Machine

/-! Writes of I (R110 to R112) -/

/-- An instruction whose handler writes I completes, and changes nothing but I and PC. -/
theorem exec_of_setI {i : Instr} {s : State} {v : Word} (h : exec i s = (s.setI v).done) :
    ∃ t, exec i s = .next t ∧ t.iReg = v ∧ t.pc = s.pc + 2 ∧ KeepsExcept [.iReg] [] s t :=
  ⟨(s.setI v).advance 2, h, rfl, rfl, by simp [KeepsExcept.refl]⟩

/-- Settles O46: either handler writes I, and five times a byte does not wrap. -/
theorem loadsOfI : Obligations.LoadsOfI := by
  refine fun nnn x s => ⟨exec_of_setI rfl, ?_⟩
  obtain ⟨t, ht, hi, hpc, hframe⟩ := exec_of_setI (i := .ldF x) (s := s) rfl
  exact ⟨t, ht, by rw [hi, glyphAddress_toNat], hpc, hframe⟩

/-- Settles O47: a sum of at most 0xFFFF is what the 16-bit addition gives. -/
theorem addToI : Obligations.AddToI := by
  refine fun x s => ⟨fun hle => ?_, fun hgt => execAddI_of_gt x hgt⟩
  obtain ⟨t, ht, hi, hpc, hframe⟩ := exec_of_setI (execAddI_of_le x hle)
  exact ⟨t, ht, by rw [hi, indexSum_toNat hle], hpc, hframe⟩

/-! A block stored (R113, R114) -/

/-- An instruction whose handler stores a block that fits completes; the block reads back byte by byte, and nothing
outside it changes but PC. -/
theorem exec_of_setBytes {i : Instr} {s : State} {a : Nat} {vs : List Byte}
    (h : exec i s = .next (State.advance { s with mem := s.mem.setBytes a vs } 2)) (hfits : a + vs.length ≤ 4096) :
    ∃ t, exec i s = .next t ∧ (∀ k, k < vs.length → t.readByte (a + k) = .ok (vs.getD k 0)) ∧
      (∀ b, b < a ∨ a + vs.length ≤ b → t.readByte b = s.readByte b) ∧ t.pc = s.pc + 2 ∧
      KeepsExcept [.memory] [] s t := by
  refine ⟨_, h, fun k hk => ?_, fun b hb => ?_, rfl, ?_⟩
  · have hin : a ≤ a + k ∧ a + k < a + vs.length ∧ a + k < 4096 := by omega
    rw [State.advance_readByte, State.readByte_setBytes, if_pos hin, Nat.add_sub_cancel_left]
  · have hout : ¬ (a ≤ b ∧ b < a + vs.length ∧ b < 4096) := by omega
    rw [State.advance_readByte, State.readByte_setBytes, if_neg hout]
  · rw [keepsExcept_advance]
    exact keepsExcept_withMem (by simp) _

theorem decimalDigits_length (v : Byte) : (decimalDigits v).length = 3 := rfl

/-- Settles O48: the block is the list of the three digits. -/
theorem bcdStore : Obligations.BcdStore := by
  refine fun x s => ⟨fun hle => ?_, fun hgt => ?_⟩
  · have hfits : s.iReg.toNat + 3 ≤ 4096 := Nat.succ_le_succ hle
    obtain ⟨t, ht, hin, hout, hpc, hframe⟩ := exec_of_setBytes ((execLdB_eq x s).trans (if_pos hfits)) hfits
    rw [decimalDigits_length] at hin hout
    exact ⟨t, ht, hin 0 (by decide), hin 1 (by decide), hin 2 (by decide), hout, hpc, hframe⟩
  · rw [execLdB_eq, if_neg (by omega)]

/-- Settles O49: the block is the list of V0 to VX. -/
theorem blockStore : Obligations.BlockStore := by
  refine fun x s => ⟨fun hle => ?_, fun hgt => ?_⟩
  · have hfits : s.iReg.toNat + (x.val + 1) ≤ 4096 := Nat.succ_le_succ hle
    obtain ⟨t, ht, hin, hout, hpc, hframe⟩ :=
      exec_of_setBytes ((execStoreRegs_eq x s).trans (if_pos hfits)) (by rwa [State.regsUpTo_length])
    rw [State.regsUpTo_length] at hin hout
    refine ⟨t, ht, fun r hr => ?_, hout, hpc, hframe⟩
    rw [hin r.val (Nat.lt_succ_of_le hr), State.regsUpTo_getD s x hr, Fin.ofNat_val_eq_self]
  · rw [execStoreRegs_eq, if_neg (by omega)]

/-! A block loaded (R115) -/

/-- Every register after `LD VX,[I]`: the byte at I + r up to VX, the old value above. -/
theorem exec_loadRegs_reg {x : Reg} {s t : State} (h : exec (.loadRegs x) s = .next t) (r : Reg) :
    t.reg r = if r.val ≤ x.val then s.mem.get (s.iReg.toNat + r.val) else s.reg r := by
  obtain ⟨-, rfl⟩ := exec_loadRegs_next h
  have hlen : ((List.range (x.val + 1)).map fun k => s.mem.get (s.iReg.toNat + k)).length = x.val + 1 := by simp
  rw [State.advance_reg, State.setRegs_reg _ _ _ (by omega), hlen]
  by_cases hr : r.val ≤ x.val
  · have hin : 0 ≤ r.val ∧ r.val < 0 + (x.val + 1) := by omega
    rw [if_pos hin, if_pos hr, List.getD_eq_getElem _ _ (by omega)]
    simp
  · have hout : ¬ (0 ≤ r.val ∧ r.val < 0 + (x.val + 1)) := by omega
    rw [if_neg hout, if_neg hr]

/-- Settles O50: the block is read from the memory before the load, at addresses that all fit. -/
theorem blockLoad : Obligations.BlockLoad := by
  refine fun x s => ⟨fun hle => ?_, fun hgt => ?_⟩
  · have hdone := (execLoadRegs_eq x s).trans (if_pos (Nat.succ_le_succ hle))
    refine ⟨_, hdone, fun r (hr : r.val ≤ x.val) => ?_, fun r (hr : x.val < r.val) => ?_,
      pcAfterTheHandler _ _ _ rfl hdone, ?_⟩
    · have hfits : s.iReg.toNat + r.val < 4096 := by omega
      rw [s.readByte_of_lt hfits, exec_loadRegs_reg hdone, if_pos hr]
    · rw [exec_loadRegs_reg hdone, if_neg (Nat.not_le.mpr hr)]
    · exact ⟨(exec_frame hdone).1, fun r hr => absurd (List.mem_finRange r) hr⟩
  · rw [execLoadRegs_eq, if_neg (by omega)]

end Sys2Proof.Machine
end

section
/-! PROOFS. The family 44_display.md: the clear screen, and what a completed `DRW` leaves in a pixel and in VF. -/

namespace Sys2Proof.Machine

/-- Settles O51: the handler puts the clear display in place and goes on. -/
theorem clearScreen : Obligations.ClearScreen :=
  fun s => ⟨(s.setDisplay clearDisplay).advance 2, rfl, clearDisplay_pixel, rfl, by simp [KeepsExcept.refl]⟩

/-! A completed `DRW` (R121, R122) -/

theorem flagByte_eq_one_iff (b : Bool) : flagByte b = 1 ↔ b = true := by
  cases b <;> decide

/-- The bytes of an `n`-row sprite: those at I, I + 1, … (R121). -/
def State.spriteBytes (s : State) (n : Nat) : List Byte := (List.range n).map fun k => s.mem.get (s.iReg.toNat + k)

/-- A sprite of `DRW` has at most 15 rows, so within it no pixel is touched twice (R122.4). -/
theorem State.spriteBytes_length_le (s : State) (n : Fin 16) : (s.spriteBytes n.val).length ≤ 32 := by
  rw [State.spriteBytes, List.length_map, List.length_range]
  omega

theorem State.mem_points_spriteBytes {s : State} {n : Nat} (hfits : n = 0 ∨ s.iReg.toNat + n ≤ 4096) (x0 y0 : Nat)
    (py : Fin 32) (px : Fin 64) : (py, px) ∈ spritePoints x0 y0 0 (s.spriteBytes n) ↔ UnderSprite s x0 y0 n py px :=
  mem_spritePoints_iff_underSprite s x0 y0 n hfits py px

section
variable {x y : Reg} {n : Fin 16} {s t : State}

/-- A completed `DRW` had its sprite in memory, and left the display and the flag of one blit. -/
theorem exec_drw_blit (h : exec (.drw x y n) s = .next t) : (n.val = 0 ∨ s.iReg.toNat + n.val ≤ 4096) ∧
    t.disp = (blit s.disp (s.reg x).toNat (s.reg y).toNat (s.spriteBytes n.val)).1 ∧
    t.reg vf = flagByte (blit s.disp (s.reg x).toNat (s.reg y).toNat (s.spriteBytes n.val)).2 := by
  rw [execDrw_eq] at h
  split at h <;> cases h
  exact ⟨‹_›, rfl, by rw [State.advance_reg, State.setDisplay_reg, State.setFlag_reg_vf]; rfl⟩

/-- A pixel after `DRW`: toggled under a 1 bit of the sprite, else as it was (R121). -/
theorem exec_drw_pixel (h : exec (.drw x y n) s = .next t) (py : Fin 32) (px : Fin 64)
    [Decidable (UnderSprite s (s.reg x).toNat (s.reg y).toNat n.val py px)] :
    t.disp.pixel py px =
      (s.disp.pixel py px ^^ decide (UnderSprite s (s.reg x).toNat (s.reg y).toNat n.val py px)) := by
  obtain ⟨hfits, hdisp, -⟩ := exec_drw_blit h
  obtain ⟨hpixel, -⟩ := blit_eq s.disp (s.reg x).toNat (s.reg y).toNat _ (s.spriteBytes_length_le n)
  rw [hdisp, hpixel, decide_eq_decide.mpr (State.mem_points_spriteBytes hfits _ _ py px)]

/-- VF after `DRW` is the collision: some pixel under a 1 bit was set (R121). -/
theorem exec_drw_vf (h : exec (.drw x y n) s = .next t) : t.reg vf = 1 ↔
    ∃ py px, UnderSprite s (s.reg x).toNat (s.reg y).toNat n.val py px ∧ s.disp.pixel py px = true := by
  obtain ⟨hfits, -, hflag⟩ := exec_drw_blit h
  obtain ⟨-, hcollision⟩ := blit_eq s.disp (s.reg x).toNat (s.reg y).toNat _ (s.spriteBytes_length_le n)
  rw [hflag, flagByte_eq_one_iff, hcollision, Prod.exists]
  exact exists_congr fun py => exists_congr fun px =>
    and_congr_left' (State.mem_points_spriteBytes hfits _ _ py px)

end

/-- Settles O52: a pixel is toggled or kept as it lies under the sprite, and VF, a flag, is 1 only for a collision. -/
theorem drawSprite : Obligations.DrawSprite := by
  classical
  refine fun x y n s => ⟨fun hfits => ?_, fun hn hgt => ?_⟩
  · have hdone := (execDrw_eq x y n s).trans (if_pos hfits)
    refine ⟨_, hdone, fun py px hunder => ?_, fun py px hout => ?_, (exec_drw_vf hdone).mpr, fun hclear => ?_,
      pcAfterTheHandler _ _ _ rfl hdone, exec_frame hdone⟩
    · rw [exec_drw_pixel hdone, decide_eq_true hunder, Bool.xor_true]
    · rw [exec_drw_pixel hdone, decide_eq_false hout, Bool.xor_false]
    · refine (exec_flagWriter_vf hdone rfl List.not_mem_nil).resolve_right fun hset => ?_
      obtain ⟨py, px, hunder, hpixel⟩ := (exec_drw_vf hdone).mp hset
      exact Bool.false_ne_true ((hclear py px hunder).symm.trans hpixel)
  · have hout : ¬ (n.val = 0 ∨ s.iReg.toNat + n.val ≤ 4096) := by omega
    rw [execDrw_eq, if_neg hout]

/-! The same `DRW` a second time -/

/-- What lies under a sprite is told by I and the memory. -/
theorem underSprite_congr {s t : State} (hi : t.iReg = s.iReg) (hm : ∀ a, t.readByte a = s.readByte a)
    (x0 y0 n : Nat) (py : Fin 32) (px : Fin 64) : UnderSprite t x0 y0 n py px ↔ UnderSprite s x0 y0 n py px := by
  simp only [UnderSprite, hi, hm]

/-- Settles O53: the second `DRW` finds I, VX, VY and the sprite as they were, so it toggles the same pixels, and one
that is set then was 0 at first. -/
theorem drawTwiceRestores : Obligations.DrawTwiceRestores := by
  classical
  intro x y n s t hx hy h
  obtain ⟨hpieces, hregs⟩ : KeepsExcept [.display] [vf] s t := exec_frame h
  have hi : t.iReg = s.iReg := hpieces .iReg (by decide)
  have hvx : t.reg x = s.reg x := hregs x (by simpa using hx)
  have hvy : t.reg y = s.reg y := hregs y (by simpa using hy)
  have hunder : ∀ py px, UnderSprite t (t.reg x).toNat (t.reg y).toNat n.val py px ↔
      UnderSprite s (s.reg x).toNat (s.reg y).toNat n.val py px := by
    rw [hvx, hvy]
    exact underSprite_congr hi (hpieces .memory (by decide)) _ _ _
  obtain ⟨hfits, -, -⟩ := exec_drw_blit h
  have hdone := (execDrw_eq x y n t).trans (if_pos (by rwa [hi]))
  refine ⟨_, hdone, fun py px => ?_, ?_⟩
  · rw [exec_drw_pixel hdone, exec_drw_pixel h, decide_eq_decide.mpr (hunder py px), Bool.xor_assoc, Bool.xor_self,
      Bool.xor_false]
  · rw [exec_drw_vf hdone]
    refine exists_congr fun py => exists_congr fun px => ?_
    rw [hunder]
    refine and_congr_right fun hu => ?_
    rw [exec_drw_pixel h, decide_eq_true hu, Bool.xor_true, Bool.not_eq_true']

end Sys2Proof.Machine
end

section
/-! PROOFS. The family 45_keypad_timers.md: the skips on a key, the loads to and from the timers, and the key wait. -/

namespace Sys2Proof.Machine

/-- Settles O54: a key number makes either instruction a skip, on the key's flag or on its negation; a larger value is
the handler's fault. -/
theorem skipsOnKeys : Obligations.SkipsOnKeys := by
  refine fun x s => ⟨fun k hk => ⟨?skp, ?sknp⟩, fun hgt => ⟨execSkp_of_ge hgt, execSknp_of_ge hgt⟩⟩
  case skp => exact exec_of_skipIf (execSkp_of_lt hk) Iff.rfl Iff.rfl
  case sknp => exact exec_of_skipIf (execSknp_of_lt hk) (.of_eq (Bool.not_eq_true' _)) (.of_eq (Bool.not_eq_false' _))

/-- Settles O55: the first handler writes one register, the others write one timer and go on to the next instruction. -/
theorem timerInstructions : Obligations.TimerInstructions := by
  refine fun x s => ⟨exec_of_setReg rfl, ⟨_, rfl, rfl, rfl, ?delay⟩, _, rfl, rfl, rfl, ?sound⟩
  case delay => exact (keepsExcept_advance 2).mpr (keepsExcept_withDt List.mem_cons_self (s.reg x))
  case sound => exact (keepsExcept_advance 2).mpr (keepsExcept_withSt List.mem_cons_self (s.reg x))

/-- A key number is a byte as it stands. -/
theorem byteOfKey_toNat (k : Reg) : (BitVec.ofNat 8 k.val).toNat = k.val := by
  rw [BitVec.toNat_ofNat, Nat.mod_eq_of_lt (k.isLt.trans (by decide))]

/-- Settles O56: the scan's answer is the highest pressed key, which the handler writes to VX; without one it leaves the
state as it is. -/
theorem keyWait : Obligations.KeyWait := by
  refine fun x s => ⟨fun k hk hmax => ?pressed, fun hnone => ⟨s, execLdVxK_none hnone, rfl, .refl _ _ s⟩⟩
  case pressed =>
    obtain ⟨t, ht, hreg, hpc, hframe⟩ := exec_of_setReg (execLdVxK_some hk hmax)
    exact ⟨t, ht, by rw [hreg, byteOfKey_toNat], hpc, hframe⟩

end Sys2Proof.Machine
end

section
/-! PROOFS. The family 60_exceptions.md: the causes of a fault and the fault of each cause, and what the host's
operations answer and leave. -/

namespace Sys2Proof.Machine

/-! Instructions that raise nothing (R140) -/

/-- Settles O17: each of the other handlers is one update of the state; the key wait also completes when it stalls. -/
theorem otherInstructionsNeverFault : Obligations.OtherInstructionsNeverFault := by
  intro i s hi
  cases i with
  | ldVxK x =>
    by_cases hnone : ∀ k, s.key k = false
    · exact ⟨s, execLdVxK_none hnone⟩
    · obtain ⟨k, hk, hmax⟩ := exists_highest_key hnone
      exact ⟨_, execLdVxK_some hk hmax⟩
  | ret | call _ | drw _ _ _ | ldB _ | storeRegs _ | loadRegs _ | skp _ | sknp _ | addI _ => cases hi
  | _ => exact ⟨_, rfl⟩

/-! The causes of a fault, and the fault of each cause (R140, R148) -/

section
variable {s : State} {i : Instr} {f : Fault}

/-- An instruction with data bytes completes if they all lie in memory, and else faults at the first that does not. -/
theorem exec_of_dataBytes (s : State) (hi : 0 < dataBytes i) : ∃ t, exec i s =
    if s.iReg.toNat + dataBytes i ≤ 4096 then .next t else .fault (.addressRange (max s.iReg.toNat 4096)) := by
  cases i with
  | ldB x => exact ⟨_, execLdB_eq x s⟩
  | storeRegs x => exact ⟨_, execStoreRegs_eq x s⟩
  | loadRegs x => exact ⟨_, execLoadRegs_eq x s⟩
  | drw x y n =>
    have hn : n.val ≠ 0 := hi.ne'
    have hdrw := execDrw_eq x y n s
    simp only [hn, false_or] at hdrw
    exact ⟨_, hdrw⟩
  | _ => cases hi

/-- The phases before the handler fail only where PC is too near the end of memory or the word has no operation. -/
theorem faultCause_of_fetchDecode (h : s.fetchDecode = .error f) : FaultCause s f := by
  obtain hlt | hge := Nat.lt_or_ge (s.pc.toNat + 1) 4096
  · have hf := s.fetch_of_lt hlt
    cases hd : decode (wordOfBytes (s.mem.get s.pc.toNat) (s.mem.get (s.pc.toNat + 1))) with
    | instr i => rw [State.fetchDecode_of_instr hf hd] at h; cases h
    | illegal why => rw [State.fetchDecode_of_illegal hf hd] at h; cases h; exact ⟨hf, why, hd⟩
  · rw [State.fetchDecode_of_fault (s.fetch_of_ge hge)] at h
    cases h
    exact .inl ⟨hge, rfl⟩

/-- The handler of a fetched instruction completes, or ends in a fault whose cause holds. -/
theorem exec_next_or_faultCause (hf : s.fetchDecode = .ok i) :
    (∃ t, exec i s = .next t) ∨ ∃ f, exec i s = .fault f ∧ FaultCause s f := by
  by_cases hi : 0 < dataBytes i
  · obtain ⟨t, ht⟩ := exec_of_dataBytes s hi
    by_cases hfits : s.iReg.toNat + dataBytes i ≤ 4096
    · exact .inl ⟨t, ht.trans (if_pos hfits)⟩
    · exact .inr ⟨_, ht.trans (if_neg hfits), .inr ⟨i, hf, hi, Nat.not_le.mp hfits, rfl⟩⟩
  · cases i with
    | ret =>
      cases hs : s.stack with
      | nil => exact .inr ⟨_, execRet_nil hs, hf, hs⟩
      | cons a as => exact .inl ⟨_, execRet_cons hs⟩
    | call nnn =>
      obtain hroom | hfull := Nat.lt_or_ge s.stack.length 16
      · exact .inl ⟨_, execCall_of_lt nnn hroom⟩
      · exact .inr ⟨_, execCall_of_ge nnn hfull, nnn, hf, hfull⟩
    | addI x =>
      obtain hgt | hle := Nat.lt_or_ge 0xFFFF (s.iReg.toNat + (s.reg x).toNat)
      · exact .inr ⟨_, execAddI_of_gt x hgt, x, hf, hgt⟩
      · exact .inl ⟨_, execAddI_of_le x hle⟩
    | skp x =>
      obtain hkey | hgt := Nat.lt_or_ge (s.reg x).toNat 16
      · exact .inl ⟨_, execSkp_of_lt (k := ⟨_, hkey⟩) rfl⟩
      · exact .inr ⟨_, execSkp_of_ge hgt, x, .inl hf, rfl, hgt⟩
    | sknp x =>
      obtain hkey | hgt := Nat.lt_or_ge (s.reg x).toNat 16
      · exact .inl ⟨_, execSknp_of_lt (k := ⟨_, hkey⟩) rfl⟩
      · exact .inr ⟨_, execSknp_of_ge hgt, x, .inr hf, rfl, hgt⟩
    | drw x y n =>
      have hn : n.val = 0 := Nat.eq_zero_of_not_pos hi
      exact .inl ⟨_, (execDrw_eq x y n s).trans (if_pos (.inl hn))⟩
    | ldB x | storeRegs x | loadRegs x => exact absurd (Nat.succ_pos _) hi
    | _ => exact .inl (otherInstructionsNeverFault _ s rfl)

/-- A step completes, or ends in a fault whose cause holds. -/
theorem step_next_or_faultCause (s : State) : (∃ t, step s = .next t) ∨ ∃ f, step s = .fault f ∧ FaultCause s f := by
  cases hf : s.fetchDecode with
  | error f => exact .inr ⟨f, step_of_fault hf, faultCause_of_fetchDecode hf⟩
  | ok i =>
    rw [step_of_instr hf]
    obtain ⟨t, ht⟩ | ⟨f, he, hcause⟩ := exec_next_or_faultCause hf
    · exact .inl ⟨t.tick, by rw [ht, retire_next]⟩
    · exact .inr ⟨f, by rw [he, retire_fault], hcause⟩

theorem step_of_exec_fault (hf : s.fetchDecode = .ok i) (he : exec i s = .fault f) : step s = .fault f := by
  rw [step_of_instr hf, he, retire_fault]

/-- Where the cause of a fault holds, the step ends in it. -/
theorem step_of_faultCause (h : FaultCause s f) : step s = .fault f := by
  cases f with
  | addressRange a =>
    obtain ⟨hpc, rfl⟩ | ⟨i, hf, hi, hbeyond, rfl⟩ := h
    · exact step_of_fault (State.fetchDecode_of_fault (s.fetch_of_ge hpc))
    · obtain ⟨t, ht⟩ := exec_of_dataBytes s hi
      exact step_of_exec_fault hf (ht.trans (if_neg (Nat.not_le.mpr hbeyond)))
  | decodeError w =>
    obtain ⟨hfetch, why, hd⟩ := h
    exact step_of_fault (State.fetchDecode_of_illegal hfetch hd)
  | stackUnderflow =>
    obtain ⟨hf, hs⟩ := h
    exact step_of_exec_fault hf (execRet_nil hs)
  | stackOverflow =>
    obtain ⟨nnn, hf, hfull⟩ := h
    exact step_of_exec_fault hf (execCall_of_ge nnn hfull)
  | keyRange v =>
    obtain ⟨x, hf | hf, rfl, hgt⟩ := h
    · exact step_of_exec_fault hf (execSkp_of_ge hgt)
    · exact step_of_exec_fault hf (execSknp_of_ge hgt)
  | indexOverflow =>
    obtain ⟨x, hf, hgt⟩ := h
    exact step_of_exec_fault hf (execAddI_of_gt x hgt)
  | registerRange | romTooLarge n => exact h.elim

theorem faultCause_of_step (h : step s = .fault f) : FaultCause s f := by
  obtain ⟨t, ht⟩ | ⟨g, hg, hcause⟩ := step_next_or_faultCause s
  · cases ht.symm.trans h
  · cases hg.symm.trans h
    exact hcause

theorem step_ne_refused (s : State) (r : Refusal) : step s ≠ .refused r := by
  intro h
  obtain ⟨t, ht⟩ | ⟨f, hf, -⟩ := step_next_or_faultCause s
  · cases ht.symm.trans h
  · cases hf.symm.trans h

end

/-- Settles O16: a step that does not complete ends in a fault with its cause, and each cause makes the step end in its
fault. -/
theorem stepFaultsExactlyOnTheirCauses : Obligations.StepFaultsExactlyOnTheirCauses :=
  fun s => ⟨fun _ => ⟨faultCause_of_step, step_of_faultCause⟩, step_ne_refused s⟩

/-! The host's `step()` (R146, R147) -/

theorem hostCall_step_of_next {s t : State} (h : step s = .next t) : hostCall .step s = .next (.ok, t) := by
  change hostStep s = _
  unfold hostStep
  rw [h]

theorem hostCall_step_of_fault {s : State} {f : Fault} (h : step s = .fault f) :
    hostCall .step s = .next (.faulted f, s) := by
  change hostStep s = _
  unfold hostStep
  rw [h]

/-- A run of host operations whose first is answered goes on from the state that this one left. -/
theorem hostRun_cons_of_next {op : HostOp} {a : Response} {s t : State} (h : hostCall op s = .next (a, t))
    (ops : List HostOp) : hostRun (op :: ops) s = hostRun ops t := by
  rw [hostRun, h]

/-- Settles O32: each further `step()` starts from the same state, so it ends in the same fault. -/
theorem faultLeavesTheStateUnchanged : Obligations.FaultLeavesTheStateUnchanged := by
  intro s f h
  have hcall := hostCall_step_of_fault h
  refine ⟨hcall, fun k => ?_⟩
  induction k with
  | zero => rfl
  | succ k ih => rw [List.replicate_succ, hostRun_cons_of_next hcall, ih]

/-! `setKeyState` and the read-outs (R156 to R158) -/

theorem hostCall_setKeyState_of_key (q : Reg) (pressed : Bool) (s : State) :
    hostCall (.setKeyState q.val pressed) s = .next (.none, s.setKey q pressed) := by
  unfold hostCall
  simp only [q.isLt, if_true, Fin.ofNat_val_eq_self]

theorem hostCall_setKeyState_of_ge {k : Nat} (h : 16 ≤ k) (pressed : Bool) (s : State) :
    hostCall (.setKeyState k pressed) s = .next (.rejected, s) :=
  if_neg (Nat.not_lt.mpr h)

theorem keepsExcept_setKey (q : Reg) (pressed : Bool) (s : State) : KeepsExcept [.keys] [] s (s.setKey q pressed) := by
  apply KeepsExcept.of_fields <;> simp

/-- Settles O29: 16 parts the rejected numbers from the keys, and the call writes the one flag. -/
theorem setKeyStateOperation : Obligations.SetKeyStateOperation := by
  refine fun s k pressed => ⟨?_, fun hk => hostCall_setKeyState_of_ge hk pressed s⟩
  rintro q rfl
  refine ⟨s.setKey q pressed, hostCall_setKeyState_of_key q pressed s, ?_, fun j hj => ?_, rfl,
    keepsExcept_setKey q pressed s⟩
  · rw [State.setKey_key, if_pos rfl]
  · rw [State.setKey_key, if_neg hj]

theorem State.tone_eq_true_iff (s : State) : s.tone = true ↔ s.st.toNat ≠ 0 := by
  rw [State.tone, bne_iff_ne, ne_eq, BitVec.toNat_eq]
  rfl

/-- Settles O30: the two calls answer a field and hand the state back. -/
theorem readOutsChangeNothing : Obligations.ReadOutsChangeNothing := fun s => ⟨rfl, rfl, s.tone_eq_true_iff⟩

/-! Snapshot and restore (R159, R160) -/

/-- A record is restorable exactly when the state it describes has the invariant. -/
theorem Snapshot.inDomain_iff (r : Snapshot) (u : State) : r.inDomain = true ↔ (u.restore r).wf := by
  simp [Snapshot.inDomain, State.restore, and_comm]

/-- The restored record of a state is that state, but for the counter of draws. -/
theorem State.restore_snapshot (s u : State) : u.restore s.snapshot = { s with draws := u.draws } := by
  simp [State.restore, State.snapshot]

theorem hostCall_restoreState_of_inDomain {r : Snapshot} (h : r.inDomain = true) (u : State) :
    hostCall (.restoreState r) u = .next (.none, u.restore r) :=
  if_pos h

theorem hostCall_restoreState_of_not_inDomain {r : Snapshot} (h : ¬ r.inDomain = true) (u : State) :
    hostCall (.restoreState r) u = .refused .snapshotOutOfDomain :=
  if_neg h

/-- Settles O31: the invariant puts the record in the domain of `restoreState`, and the two reversals of the stack
cancel. -/
theorem restoreOfSnapshot : Obligations.RestoreOfSnapshot := by
  refine fun s hs => ⟨s.snapshot, rfl, fun u => ?_⟩
  have hdomain : s.snapshot.inDomain = true := by
    rw [Snapshot.inDomain_iff _ s, State.restore_snapshot]
    exact hs
  rw [hostCall_restoreState_of_inDomain hdomain, State.restore_snapshot]

/-! The invariant along every sequence of host operations (R161, R162) -/

section
variable {s : State} {rom : List Byte}

theorem hostCall_loadROM_of_ok {t : State} (h : s.loadROM rom = .ok t) :
    hostCall (.loadROM rom) s = .next (.ok, t) := by
  unfold hostCall
  simp only [h]

theorem hostCall_loadROM_of_error {f : Fault} (h : s.loadROM rom = .error f) :
    hostCall (.loadROM rom) s = .next (.faulted f, s) := by
  unfold hostCall
  simp only [h]

end

/-- A load starts from the reset memory, and a ROM it accepts ends within the 4096 bytes (R172, R173). -/
theorem State.loadROM_wf {s t : State} {rom : List Byte} (h : s.loadROM rom = .ok t) : t.wf := by
  obtain ⟨hlen, rfl⟩ := State.loadROM_ok h
  have hfits : Config.romBase + rom.length ≤ Config.memSize := Nat.add_le_add_left hlen Config.romBase
  exact ⟨Memory.wf_setBytes Memory.wf_nil hfits, Nat.zero_le _⟩

/-- An answered host operation keeps the invariant: a step does so by O12, `restoreState` by its own check. -/
theorem hostCall_keeps_wf {op : HostOp} {a : Response} {s t : State} (h : hostCall op s = .next (a, t))
    (hs : s.wf) : t.wf := by
  cases op with
  | reset => cases h; exact resetHasStateWf
  | loadROM rom =>
    cases hload : s.loadROM rom with
    | ok u => cases (hostCall_loadROM_of_ok hload).symm.trans h; exact State.loadROM_wf hload
    | error f => cases (hostCall_loadROM_of_error hload).symm.trans h; exact hs
  | step =>
    cases hstep : step s with
    | next u => cases (hostCall_step_of_next hstep).symm.trans h; exact stepKeepsStateWf s t hs hstep
    | fault f => cases (hostCall_step_of_fault hstep).symm.trans h; exact hs
    | refused r => exact absurd hstep (step_ne_refused s r)
  | setKeyState k pressed =>
    obtain hk | hk := Nat.lt_or_ge k 16
    · cases (hostCall_setKeyState_of_key ⟨k, hk⟩ pressed s).symm.trans h; exact hs
    · cases (hostCall_setKeyState_of_ge hk pressed s).symm.trans h; exact hs
  | getDisplayBuffer | getSoundTimerValue | snapshotState => cases h; exact hs
  | restoreState r =>
    by_cases hr : r.inDomain = true
    · cases (hostCall_restoreState_of_inDomain hr s).symm.trans h; exact (Snapshot.inDomain_iff r s).mp hr
    · cases (hostCall_restoreState_of_not_inDomain hr s).symm.trans h

/-- Settles O33, by induction on the list of operations: none of them loses the invariant. -/
theorem hostRunKeepsStateWf : Obligations.HostRunKeepsStateWf := by
  intro ops
  induction ops with
  | nil => intro s t hs h; cases h; exact hs
  | cons op ops ih =>
    intro s t hs h
    cases hcall : hostCall op s with
    | next p =>
      rw [hostRun_cons_of_next hcall] at h
      exact ih p.2 t (hostCall_keeps_wf hcall hs) h
    | fault f | refused r => rw [hostRun, hcall] at h; cases h

end Sys2Proof.Machine
end

section
/-! PROOFS. The family 70_reset_and_hazards.md: a parked program, and what `reset` and `loadROM` leave. -/

namespace Sys2Proof.Machine

/-! A parked program (R181) -/

/-- A number of ticks lowers each timer by that number, down to 0 (R74). -/
theorem State.tick_iterate (k : Nat) (s : State) : State.tick^[k] s =
    { s with dt := BitVec.ofNat 8 (s.dt.toNat - k), st := BitVec.ofNat 8 (s.st.toNat - k) } := by
  induction k generalizing s with
  | zero => simp
  | succ k ih =>
    rw [Function.iterate_succ_apply, ih]
    simp [State.tick, tickTimer_toNat, Nat.sub_sub, Nat.add_comm]

section
variable {s : State}

/-- The jump to its own address leaves PC as it is, so the tick is all that the step does. -/
theorem Parked.step_eq (h : Parked s) : step s = .next s.tick := step_of_instr h

/-- PC and memory, all that a fetch reads, are kept by the tick. -/
theorem Parked.tick (h : Parked s) : Parked s.tick := h

theorem Parked.tick_iterate (h : Parked s) (k : Nat) : Parked (State.tick^[k] s) := by
  induction k generalizing s with
  | zero => exact h
  | succ k ih => exact ih h.tick

theorem Parked.runsTo_tick_iterate (h : Parked s) (k : Nat) : RunsTo k s (State.tick^[k] s) := by
  induction k generalizing s with
  | zero => rfl
  | succ k ih => exact (core_run_of_next h.step_eq).trans (ih h.tick)

end

/-- Settles O24, by induction on the number of steps: each of them is one tick. -/
theorem parkedStaysParked : Obligations.ParkedStaysParked := fun k s h =>
  ⟨State.tick^[k] s, h.runsTo_tick_iterate k, h.tick_iterate k, s.tick_iterate k⟩

/-! What `reset` leaves (R170) -/

/-- The reset contents of an address: the font below 80, zeros from there on (R24, R34). -/
theorem initialByte_eq (a : Nat) : initialByte a = if a < 80 then fontBytes.getD a 0 else 0 := by
  split
  · rfl
  · exact initialByte_of_ge (by omega)

section
variable (s : State)

theorem State.resetKeepingDraws_readByte {a : Nat} (h : a < 4096) :
    s.resetKeepingDraws.readByte a = .ok (if a < 80 then fontBytes.getD a 0 else 0) := by
  rw [← initialByte_eq]
  exact State.reset_readByte h

/-- With no ROM loaded the word at 0x200 is 0x0000, which is illegal. -/
theorem State.resetKeepingDraws_step : step s.resetKeepingDraws = .fault (.decodeError 0x0000) := by
  have hfetch : s.resetKeepingDraws.fetch = .ok 0x0000 :=
    State.fetch_eq_of_bytes (s.resetKeepingDraws_readByte (a := 0x200) (by decide))
      (s.resetKeepingDraws_readByte (a := 0x201) (by decide))
  have hdecode : decode 0x0000 = .illegal .family0 := by decide
  exact step_of_fault (State.fetchDecode_of_illegal hfetch hdecode)

end

/-- Settles O27: but for the counter of draws, which it keeps, `reset` leaves the state of O11. -/
theorem resetOperation : Obligations.ResetOperation := fun s =>
  ⟨s.resetKeepingDraws, rfl, State.reset_reg, rfl, rfl, rfl, rfl, rfl, fun _ => s.resetKeepingDraws_readByte,
    clearDisplay_pixel, State.reset_key, rfl, s.resetKeepingDraws_step⟩

/-! What `loadROM` leaves (R172, R173) -/

section
variable {s t : State} {rom : List Byte}

theorem State.exists_loadROM_ok (s : State) (h : rom.length ≤ 3584) : ∃ t, s.loadROM rom = .ok t :=
  ⟨_, if_pos h⟩

theorem State.loadROM_of_gt (s : State) (h : 3584 < rom.length) :
    s.loadROM rom = .error (.romTooLarge rom.length) :=
  if_neg (Nat.not_le.mpr h)

/-- After a load every address holds its byte of the ROM, or its reset contents. -/
theorem State.loadROM_readByte_eq (h : s.loadROM rom = .ok t) {a : Nat} (ha : a < 4096) :
    t.readByte a = .ok (if 0x200 ≤ a ∧ a < 0x200 + rom.length then rom.getD (a - 0x200) 0
      else if a < 80 then fontBytes.getD a 0 else 0) := by
  obtain ⟨-, rfl⟩ := State.loadROM_ok h
  rw [State.readByte_setBytes, s.resetKeepingDraws_readByte ha, Config.romBase]
  simp only [ha, and_true, apply_ite Except.ok]

/-- A load leaves every piece but the memory as after reset; the counter of draws goes on. -/
theorem State.loadROM_frame (h : s.loadROM rom = .ok t) : KeepsExcept [.memory, .draws] [] State.reset t := by
  obtain ⟨-, rfl⟩ := State.loadROM_ok h
  apply KeepsExcept.of_fields <;> simp [State.resetKeepingDraws, State.reg]

end

/-- Settles O28: 3584 parts the ROMs that are loaded from those that are refused. -/
theorem loadRomOperation : Obligations.LoadRomOperation := by
  refine fun s rom => ⟨fun hfits => ?_, fun hlong => hostCall_loadROM_of_error (s.loadROM_of_gt hlong)⟩
  obtain ⟨t, h⟩ := s.exists_loadROM_ok hfits
  exact ⟨t, hostCall_loadROM_of_ok h, ⟨s, h⟩, fun _ => State.loadROM_readByte_eq h, State.loadROM_pc h,
    State.loadROM_frame h⟩

end Sys2Proof.Machine
end
